-- ==== Sys2Proof/Word.lean ====
section
/-! DEFINITION. The word types of HEX2B64 (spec/00_scope.md R6, spec/30_encoding.md R50 to R56). -/

namespace Sys2Proof

/-- An 8-bit unsigned value: an input character, an output symbol, a data byte (R6: `BYTE_W`, `CHAR_W`). -/
abbrev Byte := BitVec 8

/-- One hex digit's worth, 4 bits (R6: `NIB_W`). -/
abbrev Nibble := BitVec 4

/-- A legal slot value, 6 bits, and so an address of `SYMROM` (R6: `SLOTVAL_W`, R30). -/
abbrev SlotValue := BitVec 6

/-- An input word `{end, char}` (R50). -/
abbrev InWord := BitVec 9

/-- An output word `{end, sym}` (R51). -/
abbrev OutWord := BitVec 9

/-- A slot-bus word `{absent, v}` (R56). -/
abbrev SlotWord := BitVec 9

end Sys2Proof
end

