-- ==== Sys2Proof/Config.lean ====
section
/-! DEFINITION. The parameters of the hardware (spec/00_scope.md R6) and its fixed counts.

R6 leaves three parameters OPEN: "The model takes the parameters marked OPEN as arguments", and R21 denies them storage.
They are the record `Params`, an argument of every function that needs one; the machine at the defaults is `exec` and
`step`, at any parameters `execWith` and `stepWith` (assumption 10). The spec names no value of the running block that it
leaves open (spec/44_pipeline.md R126, spec/93_implementation_defined.md section 1), so this file holds no free
value. -/

namespace Sys2Proof

/-- `ODD_POLICY` (R6, R37): what `END` does while a high nibble is pending. -/
inductive OddPolicy where
  /-- `ZERO_PAD`: the missing low nibble is taken as 0 (R74). -/
  | zeroPad
  /-- `ERROR`: `END` raises `OddHexLength` (R153). -/
  | error
  deriving DecidableEq, Repr

/-- The OPEN parameters of R6. -/
structure Params where
  /-- `ODD_POLICY`. -/
  oddPolicy : OddPolicy
  /-- `IDX_W`, the width of `IDX` and of `ERR_INDEX`. -/
  idxW : Nat
  /-- `OQ_DEPTH`, the capacity of the output queue in 9-bit words. -/
  oqDepth : Nat
  deriving DecidableEq, Repr

/-- The defaults of R6: `ZERO_PAD`, 32 and 8. -/
def Params.default : Params := { oddPolicy := .zeroPad, idxW := 32, oqDepth := 8 }

/-- The values R6 allows: `IDX_W` any integer from 1 on, `OQ_DEPTH` any integer from 5 on (assumption 17). -/
abbrev Params.Legal (p : Params) : Prop := 1 ≤ p.idxW ∧ 5 ≤ p.oqDepth

/-- The largest emission of one step, the 5 of `in_ready` (R118, R131). -/
abbrev maxEmission : Nat := 5

end Sys2Proof
end

