-- ==== Sys2Proof/Syntax.lean ====
section
/-! DEFINITION. The operations of spec/opcode_table.json: one constructor per mnemonic, whose operand ranges over the
mnemonic's rows (assumption 1).

The table has three formats (spec/30_encoding.md R59, R61): `IN`, the words of the input port; `PIN`, the reset pin
sampled at a clock edge; `SLOT`, the words of the internal slot bus as SYMENC reads them. -/

namespace Sys2Proof

/-- The operations. -/
inductive Instr where
  /-- `PUSH.DEC` (R111): the character `c`, one of `0` to `9`. -/
  | pushDec (c : Byte)
  /-- `PUSH.UC` (R112): the character `c`, one of `A` to `F`. -/
  | pushUC (c : Byte)
  /-- `PUSH.LC` (R113): the character `c`, one of `a` to `f`. -/
  | pushLC (c : Byte)
  /-- `PUSH.ILL` (R114): the character `c`, no hex digit. -/
  | pushIll (c : Byte)
  /-- `END` (R115); `ignored` is the `char` field, which the block does not look at (R63). -/
  | endStream (ignored : Byte)
  /-- `RST` (R116): the pin `rst` at 1. -/
  | rst
  /-- `SYM.V` (R61, R101): a present slot whose value `v` is at most 63. -/
  | symV (v : Byte)
  /-- `SYM.PAD` (R61, R101): an absent slot; `ignored` is the `v` field, which SYMENC does not look at (R56). -/
  | symPad (ignored : Byte)
  /-- `SYM.ILL` (R61, R101): a present slot whose value `v` exceeds 63. -/
  | symIll (v : Byte)
  deriving DecidableEq, Repr

/-- A word together with the format it is read in. R59: a word selects "among the rows of its format", so the bits
alone name no operation. -/
inductive PortWord where
  /-- Format `IN`, 9 bits: one beat of the input port (R50). -/
  | inp (w : InWord)
  /-- Format `PIN`, 1 bit: the pin `rst` at a rising edge of `clk` (R59, R116). -/
  | pin (w : BitVec 1)
  /-- Format `SLOT`, 9 bits: one slot bus (R56). -/
  | slot (w : SlotWord)
  deriving DecidableEq, Repr

end Sys2Proof
end

