-- ==== Sys2Proof/WellFormed.lean ====
section
/-! DEFINITION. Which operations the operation map can name (spec/30_encoding.md R59, R61): an operand lies in the
class of its mnemonic (assumption 16). -/

namespace Sys2Proof

/-- The operand's class, by the numeric code (R59 for characters, R61 for slot values). -/
def Instr.wellFormed : Instr → Bool
  | .pushDec c => 0x30 ≤ c.toNat && c.toNat ≤ 0x39
  | .pushUC c => 0x41 ≤ c.toNat && c.toNat ≤ 0x46
  | .pushLC c => 0x61 ≤ c.toNat && c.toNat ≤ 0x66
  | .pushIll c =>
    !(0x30 ≤ c.toNat && c.toNat ≤ 0x39) && !(0x41 ≤ c.toNat && c.toNat ≤ 0x46) &&
      !(0x61 ≤ c.toNat && c.toNat ≤ 0x66)
  | .endStream _ => true
  | .rst => true
  | .symV v => v.toNat ≤ 63
  | .symPad _ => true
  | .symIll v => 63 < v.toNat

end Sys2Proof
end

