-- ==== Sys2Proof/Decode.lean ====
section
/-! DEFINITION. Decoding (spec/30_encoding.md R50, R56, R59 to R63) and, after it, encoding.

The decode of a word does not depend on the state (R66). Formats `IN` and `SLOT` are total: each of their 512 words
selects exactly one operation. Of the two `PIN` words only `rst == 1` selects one. -/

namespace Sys2Proof

/-! ### The two fields of a 9-bit word -/

/-- Bit 8: `end` of an input word, `absent` of a slot-bus word (R50, R56). -/
def wordTag (w : BitVec 9) : Bool := w.getLsbD 8

/-- Bits [7:0]: `char` of an input word, `v` of a slot-bus word (R50, R56). -/
def wordLow (w : BitVec 9) : Byte := w.extractLsb' 0 8

/-- `{tag, low}` (R8: the first of a concatenation is the more significant). -/
def mkWord (tag : Bool) (low : Byte) : BitVec 9 := BitVec.ofBool tag ++ low

/-! ### Decoding -/

/-- The code lies between `lo` and `hi`, both included. -/
def inRange (lo hi : Nat) (c : Byte) : Bool := lo ≤ c.toNat && c.toNat ≤ hi

/-- Format `IN`: the operation an input word selects (the table of R59). -/
def decodeIn (w : InWord) : Instr :=
  if wordTag w then .endStream (wordLow w)
  else if inRange 0x30 0x39 (wordLow w) then .pushDec (wordLow w)
  else if inRange 0x41 0x46 (wordLow w) then .pushUC (wordLow w)
  else if inRange 0x61 0x66 (wordLow w) then .pushLC (wordLow w)
  else .pushIll (wordLow w)

/-- Format `PIN`: `rst == 1` selects `RST`, `rst == 0` selects nothing (R59). -/
def decodePin (w : BitVec 1) : Option Instr := if w = 1#1 then some .rst else none

/-- Format `SLOT`: the row of the symbol map a slot-bus word selects (R61). -/
def decodeSlot (w : SlotWord) : Instr :=
  if wordTag w then .symPad (wordLow w)
  else if inRange 0 63 (wordLow w) then .symV (wordLow w)
  else .symIll (wordLow w)

/-- Why a word is rejected. -/
inductive Reject where
  /-- `rst == 0`: the pin selects no operation (R59). -/
  | resetNotAsserted
  deriving DecidableEq, Repr

/-- Decoding of a word of any format: an operation, or the name of the reason there is none. -/
def decode : PortWord → Except Reject Instr
  | .inp w => .ok (decodeIn w)
  | .pin w =>
    match decodePin w with
    | some i => .ok i
    | none => .error .resetNotAsserted
  | .slot w => .ok (decodeSlot w)

/-! ### The comparator tree

R60 allows HEXDEC to be built as a comparator tree and gives its equations; they select the same operation as R59. -/

/-- `is_dec` of R60. -/
def cmpIsDec (c : Byte) : Bool :=
  c.extractLsb' 4 4 == 0b0011#4 && !(c.getLsbD 3 && (c.getLsbD 2 || c.getLsbD 1))

/-- `is_letter` of R60. -/
def cmpIsLetter (c : Byte) : Bool :=
  c.extractLsb' 6 2 == 0b01#2 && c.extractLsb' 3 2 == 0b00#2 &&
    c.extractLsb' 0 3 != 0b000#3 && c.extractLsb' 0 3 != 0b111#3

/-- `valid` of R60. -/
def cmpValid (c : Byte) : Bool := cmpIsDec c || cmpIsLetter c

/-- `nib` of R60. -/
def cmpNib (c : Byte) : Nibble :=
  if cmpIsDec c then c.extractLsb' 0 4
  else if cmpIsLetter c then (c.extractLsb' 0 3).zeroExtend 4 + 9#4
  else 0#4

/-- `op` of R60. -/
def cmpDecodeIn (w : InWord) : Instr :=
  if w.getLsbD 8 then .endStream (wordLow w)
  else if cmpIsDec (wordLow w) then .pushDec (wordLow w)
  else if cmpIsLetter (wordLow w) && !(wordLow w).getLsbD 5 then .pushUC (wordLow w)
  else if cmpIsLetter (wordLow w) && (wordLow w).getLsbD 5 then .pushLC (wordLow w)
  else .pushIll (wordLow w)

/-! ### Encoding -/

/-- The word of an operation, in the format its rows of spec/opcode_table.json have. -/
def encode : Instr → PortWord
  | .pushDec c => .inp (mkWord false c)
  | .pushUC c => .inp (mkWord false c)
  | .pushLC c => .inp (mkWord false c)
  | .pushIll c => .inp (mkWord false c)
  | .endStream ignored => .inp (mkWord true ignored)
  | .rst => .pin 1#1
  | .symV v => .slot (mkWord false v)
  | .symPad ignored => .slot (mkWord true ignored)
  | .symIll v => .slot (mkWord false v)

/-! ### Words given as numbers -/

/-- The port word of the number `w` of `nbits` bits: the reset pin when the table gives the row no more than one byte
(format `PIN` is 1 bit wide), the input port otherwise. Bits that no wire of the port carries are dropped. The number
names no format, and the slot bus is no port of the block, so formats `IN` and `SLOT`, which share their 512 numbers,
are both read as `IN` (assumption 2). -/
def portWordOf (nbits w : Nat) : PortWord :=
  if nbits ≤ 8 then .pin (BitVec.ofNat 1 w) else .inp (BitVec.ofNat 9 w)

/-- The operation the decoder reads from a table word; `none` where it rejects the word. -/
def decodeTableWord (nbits w : Nat) : Option Instr :=
  match decode (portWordOf nbits w) with
  | .ok i => some i
  | .error _ => none

end Sys2Proof
end

