-- ==== Sys2Proof/Machine/State.lean ====
section
/-! DEFINITION. The state of the machine (spec/10_state.md R10 to R25), the reasons a step can stop, and the state
after reset.

The block's own state is exactly the ten items of R10: the nine registers of `Regs` (the `S` of spec/44_pipeline.md
R110) and the output queue `oq`. Beside them stands `Bench`, which is no storage of the block: the
host's side of the pins (assumptions 3 and 4). What R21 lists (wires, buses, tables, parameters) has no field. -/

namespace Sys2Proof.Machine

open Sys2Proof

/-- The error kinds, the values of `ERR_CODE` (R150). Their 2-bit codes are `ErrorKind.code` in Flags.lean
(assumption 11). -/
inductive ErrorKind where
  /-- Code 0: no error is recorded. -/
  | noError
  /-- Code 1: an illegal character (R151). -/
  | invalidHexDigit
  /-- Code 2: SYMENC was given a present slot above 63 (R152). -/
  | invalidSixBitValue
  /-- Code 3: `END` with a high nibble pending under `ODD_POLICY == ERROR` (R153). -/
  | oddHexLength
  deriving DecidableEq, Repr

/-- The registers of R10, without `OQ`: the state `S` of R110. `IDX` and `ERR_INDEX` are `IDX_W` bits wide, and their
width is a parameter, so they are naturals and every write is taken modulo `2^IDX_W` (R15, assumption 5). -/
structure Regs where
  /-- `HI`, 4 bits: the high nibble of the byte being assembled (R11). -/
  hi : Nibble
  /-- `NIBF`, 1 bit: `HI` holds a nibble waiting for its low nibble (R14). -/
  nibf : Bool
  /-- `B0`, 8 bits: first byte of the triplet being assembled (R12). -/
  b0 : Byte
  /-- `B1`, 8 bits: second byte of the triplet being assembled (R12). -/
  b1 : Byte
  /-- `CNT`, 2 bits: number of bytes held in `B0`, `B1` (R14). -/
  cnt : BitVec 2
  /-- `IDX`, `IDX_W` bits: legal characters accepted in this stream, modulo `2^IDX_W` (R15). -/
  idx : Nat
  /-- `ERR_CODE`, 2 bits (R18). -/
  errCode : ErrorKind
  /-- `ERR_CHAR`, 8 bits (R18). -/
  errChar : Byte
  /-- `ERR_INDEX`, `IDX_W` bits (R18). -/
  errIndex : Nat
  deriving DecidableEq, Repr

/-- The input pins at one rising edge of `clk` (R130). -/
structure Pins where
  /-- `rst`. -/
  rst : Bool
  /-- `in_valid`. -/
  inValid : Bool
  /-- `in_end`. -/
  inEnd : Bool
  /-- `in_char`. -/
  inChar : Byte
  /-- `out_ready`. -/
  outReady : Bool
  deriving DecidableEq, Repr

/-- The host's side of the pins: no storage of the block. The two logs are those of the run in progress, and a run begins
with a reset (R181). -/
structure Bench where
  /-- The input pins at the edges to come, the next edge first: what the host will drive. -/
  stim : List Pins
  /-- The input words transferred since the last reset, oldest first (R132): what the host has handed over. -/
  accepted : List InWord
  /-- The output words transferred since the last reset, oldest first (R132): what the host has received. -/
  delivered : List OutWord
  deriving DecidableEq, Repr

/-- The state: the block (`regs`, `oq`) and the host's side of its pins (`bench`). -/
structure State where
  /-- The nine registers of R10. -/
  regs : Regs
  /-- `OQ`: output words emitted and not yet transferred, oldest first (R19). -/
  oq : List OutWord
  /-- Stimulus and transfer logs. -/
  bench : Bench
  deriving DecidableEq, Repr

/-- Where the spec gives no successor. -/
inductive Fault where
  /-- Raised by every operation but `RST` when `ERR_CODE != 0`: "no input word is transferred, so `step` has no value
  there" (R110, R156; the treatment is `stuck`, U11 of spec/93_implementation_defined.md). Never raised by a clock
  edge, where `in_ready` is 0 (assumption 8). Safe. -/
  | stuckInErrorState
  /-- Raised by GROUP and FLUSH when `CNT == 3`, the value that "never occurs" (R10, R22) and to which no rule gives a
  meaning (assumption 9). Safe. -/
  | cntIsThree
  deriving DecidableEq, Repr

/-- Reasons the model itself refuses. -/
inductive Refusal where
  /-- Raised by an arm of `exec` whose operation has no meaning yet; no arm does. Safe. -/
  | notModelled (mnemonic : String)
  deriving DecidableEq, Repr

/-- The registers after reset, all zero (R24): the `S0` of R110. -/
def Regs.reset : Regs where
  hi := 0#4
  nibf := false
  b0 := 0#8
  b1 := 0#8
  cnt := 0#2
  idx := 0
  errCode := .noError
  errChar := 0#8
  errIndex := 0

/-- The pins of a host that does nothing: the input of every edge past the end of the stimulus (assumption 3). -/
def Pins.idle : Pins where
  rst := false
  inValid := false
  inEnd := false
  inChar := 0#8
  outReady := false

/-- The state right after a reset edge (assumption 13): all registers zero, `OQ` empty (R24), a host that has
sent nothing, received nothing and has nothing more to drive. -/
def State.reset : State where
  regs := Regs.reset
  oq := []
  bench := { stim := [], accepted := [], delivered := [] }

end Sys2Proof.Machine
end

