-- ==== Sys2Proof/Machine/Operands.lean ====
section
/-! DEFINITION. The two read-only tables (spec/20_memory.md R30 to R33), the assembly of operands (spec/30_encoding.md
R58) and the internal buses (R55, R56). The contents of the tables are the spec's (assumption 12). -/

namespace Sys2Proof.Machine

open Sys2Proof

/-! ### `HEXLUT`: 256 entries of 5 bits, `{valid, nib}` (R31) -/

/-- The 22 valid entries of `HEXLUT`, character and nibble (R31). -/
def hexlutRows : List (Byte × Nibble) :=
  [(0x30#8, 0#4), (0x31#8, 1#4), (0x32#8, 2#4), (0x33#8, 3#4), (0x34#8, 4#4),
   (0x35#8, 5#4), (0x36#8, 6#4), (0x37#8, 7#4), (0x38#8, 8#4), (0x39#8, 9#4)] ++
  [(0x41#8, 10#4), (0x42#8, 11#4), (0x43#8, 12#4), (0x44#8, 13#4), (0x45#8, 14#4), (0x46#8, 15#4)] ++
  [(0x61#8, 10#4), (0x62#8, 11#4), (0x63#8, 12#4), (0x64#8, 13#4), (0x65#8, 14#4), (0x66#8, 15#4)]

/-- `MemRead(HEXLUT, c, 1)`; the other 234 entries are `{0, 0}` (R31, R33). -/
def hexlut (c : Byte) : BitVec 5 :=
  match hexlutRows.lookup c with
  | some nib => 1#1 ++ nib
  | none => 0#5

/-- `HEXVAL(c)` (R70). -/
def hexval (c : Byte) : Option Nibble :=
  if (hexlut c).getLsbD 4 then some ((hexlut c).extractLsb' 0 4) else none

/-! ### `SYMROM`: 64 entries of 8 bits (R32) -/

/-- Entries 0 to 15: `A` to `P`. -/
def symromRows0 : List Byte :=
  [0x41#8, 0x42#8, 0x43#8, 0x44#8, 0x45#8, 0x46#8, 0x47#8, 0x48#8,
   0x49#8, 0x4A#8, 0x4B#8, 0x4C#8, 0x4D#8, 0x4E#8, 0x4F#8, 0x50#8]

/-- Entries 16 to 31: `Q` to `Z`, `a` to `f`. -/
def symromRows1 : List Byte :=
  [0x51#8, 0x52#8, 0x53#8, 0x54#8, 0x55#8, 0x56#8, 0x57#8, 0x58#8,
   0x59#8, 0x5A#8, 0x61#8, 0x62#8, 0x63#8, 0x64#8, 0x65#8, 0x66#8]

/-- Entries 32 to 47: `g` to `v`. -/
def symromRows2 : List Byte :=
  [0x67#8, 0x68#8, 0x69#8, 0x6A#8, 0x6B#8, 0x6C#8, 0x6D#8, 0x6E#8,
   0x6F#8, 0x70#8, 0x71#8, 0x72#8, 0x73#8, 0x74#8, 0x75#8, 0x76#8]

/-- Entries 48 to 63: `w` to `z`, `0` to `9`, `+`, `/`. -/
def symromRows3 : List Byte :=
  [0x77#8, 0x78#8, 0x79#8, 0x7A#8, 0x30#8, 0x31#8, 0x32#8, 0x33#8,
   0x34#8, 0x35#8, 0x36#8, 0x37#8, 0x38#8, 0x39#8, 0x2B#8, 0x2F#8]

/-- All 64 entries of `SYMROM` in address order (R32). -/
def symromRows : List Byte := symromRows0 ++ symromRows1 ++ symromRows2 ++ symromRows3

/-- `MemRead(SYMROM, a, 1)` (R32, R33). Every 6-bit address lies inside the table, so the 0 after it is never read. -/
def symrom (a : SlotValue) : Byte := symromRows.getD a.toNat 0#8

/-- The pad character `=`, no entry of `SYMROM` (R32, R36). -/
def padSymbol : Byte := 0x3D#8

/-! ### Operand assembly (R58) -/

/-- The nibble of a decimal digit: `c[3:0]` (R111). -/
def nibbleOfDec (c : Byte) : Nibble := c.extractLsb' 0 4

/-- The nibble of a letter digit: `zext_4(c[2:0]) + 9` (R112, R113). -/
def nibbleOfLetter (c : Byte) : Nibble := (c.extractLsb' 0 3).zeroExtend 4 + 9#4

/-- Two nibbles to a byte: `{hi, lo}`, the first in bits [7:4] (R34, R52). -/
def byteOf (hi lo : Nibble) : Byte := hi ++ lo

/-! ### The triplet bus (R55) -/

/-- `n`, the number of bytes present; 0 cannot be written (R65, U6). -/
inductive TripletSize where
  | one
  | two
  | three
  deriving DecidableEq, Repr

/-- The number itself. -/
def TripletSize.count : TripletSize → Nat
  | .one => 1
  | .two => 2
  | .three => 3

/-- A triplet `(n, b0, b1, b2)` (R55). -/
structure Triplet where
  n : TripletSize
  b0 : Byte
  b1 : Byte
  b2 : Byte
  deriving DecidableEq, Repr

/-- Format `TRIP`: `{n, b0, b1, b2}`, 26 bits (R55). -/
def Triplet.bus (t : Triplet) : BitVec 26 :=
  BitVec.ofNat 2 t.n.count ++ t.b0 ++ t.b1 ++ t.b2

/-! ### The slot bus (R56) -/

/-- A slot: `absent`, or `val v` with `v` a whole byte (R56). -/
inductive Slot where
  | absent
  | val (v : Byte)
  deriving DecidableEq, Repr

/-- Format `SLOT`: `{absent, v}`; an absent slot drives `v = 0x00` (R56). -/
def Slot.bus : Slot → SlotWord
  | .absent => mkWord true 0x00#8
  | .val v => mkWord false v

/-! ### Output words (R53) -/

/-- `SYMW(s) = {0b0, s}`. -/
def symw (s : Byte) : OutWord := mkWord false s

/-- `ENDW = 0x100`, the END marker. -/
def endw : OutWord := 0x100#9

end Sys2Proof.Machine
end

