-- ==== Sys2Proof/Machine/Flags.lean ====
section
/-! DEFINITION. Status: the numeric error codes (spec/60_exceptions.md R150), the error record (spec/30_encoding.md
R57) and the output pins as functions of the state (spec/45_ports_and_clocking.md R131). The block has no condition
codes (spec/10_state.md R16). -/

namespace Sys2Proof.Machine

open Sys2Proof

/-- `code(E)`, the 2-bit value on `err_code` (R150). -/
def ErrorKind.code : ErrorKind → BitVec 2
  | .noError => 0#2
  | .invalidHexDigit => 1#2
  | .invalidSixBitValue => 2#2
  | .oddHexLength => 3#2

/-- The block is running, `ERR_CODE == 0` (R161). -/
def Regs.running (r : Regs) : Bool := r.errCode == .noError

/-- `err_valid` (R131). -/
def Regs.errValid (r : Regs) : Bool := r.errCode.code != 0#2

/-- The error record, format `ERR`: `{err_code, err_char, err_index}`, `10 + IDX_W` bits (R57). -/
def Regs.errRecord (p : Params) (r : Regs) : BitVec (2 + 8 + p.idxW) :=
  r.errCode.code ++ r.errChar ++ BitVec.ofNat p.idxW r.errIndex

/-- `in_ready` (R131): `OQ_DEPTH - |OQ| >= 5`, written without the subtraction. -/
def State.inReady (p : Params) (rst : Bool) (s : State) : Bool :=
  !rst && s.regs.running && decide (s.oq.length + maxEmission ≤ p.oqDepth)

/-- `out_valid` (R131). -/
def State.outValid (rst : Bool) (s : State) : Bool := !rst && decide (0 < s.oq.length)

/-- `{out_end, out_sym}` (R131): the head of `OQ`, `0x000` when it is empty. -/
def State.outWord (s : State) : OutWord := s.oq.headD 0x000#9

/-- The output pins (R130). `err_index` is the number its `IDX_W` wires show. -/
structure OutPins where
  inReady : Bool
  outValid : Bool
  outEnd : Bool
  outSym : Byte
  errValid : Bool
  errCode : BitVec 2
  errChar : Byte
  errIndex : Nat
  deriving DecidableEq, Repr

/-- The output pins as a function of the state and of `rst`, and of no other input pin (R131). -/
def State.outPins (p : Params) (rst : Bool) (s : State) : OutPins where
  inReady := s.inReady p rst
  outValid := s.outValid rst
  outEnd := wordTag s.outWord
  outSym := wordLow s.outWord
  errValid := s.regs.errValid
  errCode := s.regs.errCode.code
  errChar := s.regs.errChar
  errIndex := s.regs.errIndex

end Sys2Proof.Machine
end

