-- ==== Sys2Proof/Machine/Ops.lean ====
section
/-! DEFINITION. The shared operations of a step: what a step computes (`Effect`), taking an error, emitting, and
settling a computed effect into an outcome (spec/00_scope.md R8, spec/60_exceptions.md R154 to R158).

There is no return from an error: the only exit is `RST` (R158). -/

namespace Sys2Proof.Machine

open Sys2Proof

/-- Why a step's computation ends early. -/
inductive Stop where
  /-- `raise E(c, i)` (R8). -/
  | raised (kind : ErrorKind) (char : Byte) (index : Nat)
  /-- GROUP or FLUSH found `CNT == 3` (R10: it never occurs). -/
  | noSuchCount
  deriving DecidableEq, Repr

/-- What a step computes from the registers: the new registers and the emission list, or an early end. Until it is
settled nothing of it is visible, so an early end discards all of it (R8). -/
abbrev Effect := Except Stop (Regs × List OutWord)

/-- Registers changed, nothing emitted. -/
def Effect.silent (r : Regs) : Effect := .ok (r, [])

/-- Taking an error: the state before the step with only the error record changed (R154). -/
def State.takeError (kind : ErrorKind) (char : Byte) (index : Nat) (s : State) : State :=
  { s with regs := { s.regs with errCode := kind, errChar := char, errIndex := index } }

/-- Completing a step: the registers are replaced and the emission list is appended to `OQ` as a unit (R8, R134). -/
def State.complete (r : Regs) (out : List OutWord) (s : State) : State :=
  { s with regs := r, oq := s.oq ++ out }

/-- The outcome of a computed effect. -/
def State.settle (s : State) : Effect → Host.Outcome State Fault Refusal
  | .ok (r, out) => .next (s.complete r out)
  | .error (.raised kind char index) => .next (s.takeError kind char index)
  | .error .noSuchCount => .fault .cntIsThree

/-- A step happens only while `ERR_CODE == 0`; in the error state there is none (R110, R156). -/
def State.whenRunning (s : State) (e : Effect) : Host.Outcome State Fault Refusal :=
  if s.regs.running then s.settle e else .fault .stuckInErrorState

/-- Counting an accepted character: `IDX <- (IDX + 1) mod 2^IDX_W` (R15). -/
def Regs.countChar (p : Params) (r : Regs) : Regs :=
  { r with idx := (r.idx + 1) % 2 ^ p.idxW }

end Sys2Proof.Machine
end

