-- ==== Sys2Proof/Machine/Hexdec.lean ====
section
/-! DEFINITION. Unit HEXDEC (spec/40_hex_decoder.md): `PAIR` and `PAIR_END` over the registers `HI` and `NIBF`.
`HEXVAL` is in Operands.lean. -/

namespace Sys2Proof.Machine

open Sys2Proof

/-- `PAIR(nib)` (R73). -/
def pair (nib : Nibble) (r : Regs) : Regs × Option Byte :=
  if r.nibf then ({ r with hi := 0#4, nibf := false }, some (byteOf r.hi nib))
  else ({ r with hi := nib, nibf := true }, none)

/-- `PAIR_END()` (R74). -/
def pairEnd (p : Params) (r : Regs) : Except Stop (Regs × Option Byte) :=
  if r.nibf then
    match p.oddPolicy with
    | .zeroPad => .ok ({ r with hi := 0#4, nibf := false }, some (byteOf r.hi 0b0000#4))
    | .error => .error (.raised .oddHexLength 0x00#8 r.idx)
  else .ok (r, none)

end Sys2Proof.Machine
end

