-- ==== Sys2Proof/Machine/Grouper.lean ====
section
/-! DEFINITION. Unit GROUPER (spec/41_triplet_grouper.md): `GROUP` and `FLUSH` over the registers `B0`, `B1` and
`CNT`. -/

namespace Sys2Proof.Machine

open Sys2Proof

/-- The triplet leaves GROUPER: `B0`, `B1` and `CNT` are cleared (R12). -/
def Regs.clearGroup (r : Regs) : Regs := { r with b0 := 0#8, b1 := 0#8, cnt := 0#2 }

/-- `GROUP(byte)` (R81, R82, R83). -/
def group (byte : Byte) (r : Regs) : Except Stop (Regs × Option Triplet) :=
  if r.cnt = 0#2 then .ok ({ r with b0 := byte, cnt := 1#2 }, none)
  else if r.cnt = 1#2 then .ok ({ r with b1 := byte, cnt := 2#2 }, none)
  else if r.cnt = 2#2 then .ok (r.clearGroup, some { n := .three, b0 := r.b0, b1 := r.b1, b2 := byte })
  else .error .noSuchCount

/-- `FLUSH()` (R84). -/
def flush (r : Regs) : Except Stop (Regs × Option Triplet) :=
  if r.cnt = 0#2 then .ok (r, none)
  else if r.cnt = 1#2 then .ok (r.clearGroup, some { n := .one, b0 := r.b0, b1 := 0x00#8, b2 := 0x00#8 })
  else if r.cnt = 2#2 then .ok (r.clearGroup, some { n := .two, b0 := r.b0, b1 := r.b1, b2 := 0x00#8 })
  else .error .noSuchCount

end Sys2Proof.Machine
end

