-- ==== Sys2Proof/Machine/Xlat.lean ====
section
/-! DEFINITION. Unit XLAT, the bit translator (spec/42_bit_translator.md): combinational, no register. -/

namespace Sys2Proof.Machine

open Sys2Proof

/-- `XLAT(n, b0, b1, b2)`: slots 0 to 3 (R90). Each value is computed in 8 bits with the shifts and masks of R90; a
byte that is not present contributes zero bits, whatever the bus carries. -/
def xlat (t : Triplet) : Slot × Slot × Slot × Slot :=
  let b1p : Byte := if t.n = .one then 0#8 else t.b1 >>> 4
  let b2p : Byte := if t.n = .three then t.b2 >>> 6 else 0#8
  (.val (t.b0 >>> 2),
   .val (((t.b0 &&& 0b11#8) <<< 4) ||| b1p),
   if t.n = .one then .absent else .val (((t.b1 &&& 0b1111#8) <<< 2) ||| b2p),
   if t.n = .three then .val (t.b2 &&& 0b111111#8) else .absent)

end Sys2Proof.Machine
end

