-- ==== Sys2Proof/Machine/Symenc.lean ====
section
/-! DEFINITION. Unit SYMENC, the symbol encoder (spec/43_symbol_encoder.md), and the meanings of the symbol map's
rows `SYM.V`, `SYM.PAD` and `SYM.ILL`. -/

namespace Sys2Proof.Machine

open Sys2Proof

/-- `SYM(slot)` (R101); `idx` is `IDX`, read for the error payload only. -/
def sym (slot : Slot) (idx : Nat) : Except Stop Byte :=
  match slot with
  | .absent => .ok padSymbol
  | .val v =>
    if v.extractLsb' 6 2 ≠ 0b00#2 then .error (.raised .invalidSixBitValue v idx)
    else .ok (symrom (v.extractLsb' 0 6))

/-- `ENCODE4(s0, s1, s2, s3)` (R102): all four symbols in slot order, the first that raises winning, before any is
emitted. -/
def encode4 (slots : Slot × Slot × Slot × Slot) (idx : Nat) : Except Stop (List OutWord) := do
  let y0 ← sym slots.1 idx
  let y1 ← sym slots.2.1 idx
  let y2 ← sym slots.2.2.1 idx
  let y3 ← sym slots.2.2.2 idx
  .ok [symw y0, symw y1, symw y2, symw y3]

/-- `TRANSLATE(t)` (R103). -/
def translateTriplet (t : Triplet) (idx : Nat) : Except Stop (List OutWord) := encode4 (xlat t) idx

/-! ### The rows of the symbol map

The table gives SYMENC's decode of one slot-bus word (R61). Taken as an operation of its own, such a row applies `SYM`
to the slot and emits the symbol as one output word (assumption 6). In the composed block the slot words come from
XLAT only (R64), inside `translateTriplet`. -/

/-- One slot-bus word given to SYMENC: its symbol as one output word, or the raise. -/
def encodeSlot (slot : Slot) (r : Regs) : Effect := do
  let y ← sym slot r.idx
  .ok (r, [symw y])

/-- `SYM.V` (R101): the table entry of `v`. -/
def execSymV (v : Byte) (s : State) : Host.Outcome State Fault Refusal :=
  s.whenRunning (encodeSlot (.val v) s.regs)

/-- `SYM.PAD` (R101): the pad, with the `v` field not looked at. -/
def execSymPad (_ignored : Byte) (s : State) : Host.Outcome State Fault Refusal :=
  s.whenRunning (encodeSlot .absent s.regs)

/-- `SYM.ILL` (R101, R152): `v` exceeds 63, so `SYM` raises `InvalidSixBitValue(v, IDX)`. -/
def execSymIll (v : Byte) (s : State) : Host.Outcome State Fault Refusal :=
  s.whenRunning (encodeSlot (.val v) s.regs)

end Sys2Proof.Machine
end

