-- ==== Sys2Proof/Machine/Pipeline.lean ====
section
/-! DEFINITION. The composition of the four units and the operations of the input port and of the reset pin
(spec/44_pipeline.md R111 to R116).

The only parameters a step depends on are `ODD_POLICY` and `IDX_W` (R110). A meaning that reads one is written for any
parameters, under a name that ends in `With`; the meaning itself is that one at the defaults of R6 (assumption 10).

A meaning here is the transaction-level step of R110: whether the word is transferred at all (`in_ready`) is the clock
edge's business, in Ports.lean (assumption 8). -/

namespace Sys2Proof.Machine

open Sys2Proof

/-- A byte leaves HEXDEC: `GROUP`, and `TRANSLATE` if it completes a triplet (R111, R115). -/
def deliverByte (byte : Byte) (r : Regs) : Effect := do
  let (r', t?) ← group byte r
  match t? with
  | none => .ok (r', [])
  | some t =>
    let out ← translateTriplet t r'.idx
    .ok (r', out)

/-- A legal character of value `nib` is accepted (the common body of R111, R112 and R113). `IDX` is incremented last,
so that a raise inside `TRANSLATE` reports the old one. -/
def acceptNibble (p : Params) (nib : Nibble) (r : Regs) : Effect := do
  let (r1, byte?) := pair nib r
  let (r2, out) ← match byte? with
    | none => Effect.silent r1
    | some byte => deliverByte byte r1
  .ok (r2.countChar p, out)

/-- `FLUSH` and the translation of the short last triplet (R115). -/
def drainGroup (r : Regs) : Effect := do
  let (r', t?) ← flush r
  match t? with
  | none => .ok (r', [])
  | some t =>
    let out ← translateTriplet t r'.idx
    .ok (r', out)

/-- The end of a stream (R115). -/
def finishStream (p : Params) (r : Regs) : Effect := do
  let (r1, byte?) ← pairEnd p r
  let (r2, out1) ← match byte? with
    | none => Effect.silent r1
    | some byte => deliverByte byte r1
  let (r3, out2) ← drainGroup r2
  .ok ({ r3 with idx := 0 }, out1 ++ out2 ++ [endw])

/-- `PUSH.DEC` at any parameters (R111). -/
def execPushDecWith (p : Params) (c : Byte) (s : State) : Host.Outcome State Fault Refusal :=
  s.whenRunning (acceptNibble p (nibbleOfDec c) s.regs)

/-- `PUSH.DEC` (R111). -/
def execPushDec (c : Byte) (s : State) : Host.Outcome State Fault Refusal :=
  execPushDecWith Params.default c s

/-- `PUSH.UC` at any parameters (R112). -/
def execPushUCWith (p : Params) (c : Byte) (s : State) : Host.Outcome State Fault Refusal :=
  s.whenRunning (acceptNibble p (nibbleOfLetter c) s.regs)

/-- `PUSH.UC` (R112). -/
def execPushUC (c : Byte) (s : State) : Host.Outcome State Fault Refusal :=
  execPushUCWith Params.default c s

/-- `PUSH.LC` at any parameters (R113). -/
def execPushLCWith (p : Params) (c : Byte) (s : State) : Host.Outcome State Fault Refusal :=
  s.whenRunning (acceptNibble p (nibbleOfLetter c) s.regs)

/-- `PUSH.LC` (R113). -/
def execPushLC (c : Byte) (s : State) : Host.Outcome State Fault Refusal :=
  execPushLCWith Params.default c s

/-- `PUSH.ILL` (R114): always raises `InvalidHexDigit(c, IDX)`. -/
def execPushIll (c : Byte) (s : State) : Host.Outcome State Fault Refusal :=
  s.whenRunning (.error (.raised .invalidHexDigit c s.regs.idx))

/-- `END` at any parameters (R115); the `char` field is not looked at (R63). -/
def execEndStreamWith (p : Params) (_ignored : Byte) (s : State) : Host.Outcome State Fault Refusal :=
  s.whenRunning (finishStream p s.regs)

/-- `END` (R115). -/
def execEndStream (ignored : Byte) (s : State) : Host.Outcome State Fault Refusal :=
  execEndStreamWith Params.default ignored s

/-- `RST` (R116), in any state, the error state included. A run begins (R181), so the logs of transfers begin anew. -/
def execRst (s : State) : Host.Outcome State Fault Refusal :=
  .next { regs := Regs.reset, oq := [], bench := { s.bench with accepted := [], delivered := [] } }

/-! ### Every operation at any parameters -/

/-- What an operation does at parameters `p`. At the defaults it is `exec` of Dispatch.lean. -/
def execWith (p : Params) (i : Instr) (s : State) : Host.Outcome State Fault Refusal :=
  match i with
  | .pushDec c => execPushDecWith p c s
  | .pushUC c => execPushUCWith p c s
  | .pushLC c => execPushLCWith p c s
  | .pushIll c => execPushIll c s
  | .endStream ignored => execEndStreamWith p ignored s
  | .rst => execRst s
  | .symV v => execSymV v s
  | .symPad ignored => execSymPad ignored s
  | .symIll v => execSymIll v s

end Sys2Proof.Machine
end

