-- ==== Sys2Proof/Machine/Ports.lean ====
section
/-! DEFINITION. The ports and the clock edge (spec/45_ports_and_clocking.md R130 to R135): which transfers happen at an
edge, which operation it runs, and the state that operation runs in. -/

namespace Sys2Proof.Machine

open Sys2Proof

/-- The input pins sampled at the next edge; past the end of the stimulus the host does nothing (assumption 3). -/
def State.pins (s : State) : Pins := s.bench.stim.headD Pins.idle

/-- The input word on the pins, `{in_end, in_char}` (R50). -/
def Pins.inWord (p : Pins) : InWord := mkWord p.inEnd p.inChar

/-- An output transfer happens at the next edge: `out_valid` and `out_ready` are both 1 (R132). -/
def State.outTransfer (s : State) : Bool := s.outValid s.pins.rst && s.pins.outReady

/-- An input transfer happens at the next edge: `in_valid` and `in_ready` are both 1 (R132). -/
def State.inTransfer (p : Params) (s : State) : Bool := s.pins.inValid && s.inReady p s.pins.rst

/-- The operation the next edge runs: `RST` when `rst == 1`, whatever else is presented; otherwise the operation of
the transferred input word; otherwise none (R59, R134). -/
def State.operation (p : Params) (s : State) : Option Instr :=
  match decodePin (BitVec.ofBool s.pins.rst) with
  | some i => some i
  | none => if s.inTransfer p then some (decodeIn s.pins.inWord) else none

/-- The stimulus moves on by one edge. -/
def State.consumePins (s : State) : State :=
  { s with bench := { s.bench with stim := s.bench.stim.tail } }

/-- An output transfer: the head of `OQ` goes to the host (R132). -/
def State.popOutput (s : State) : State :=
  { s with oq := s.oq.tail, bench := { s.bench with delivered := s.bench.delivered ++ [s.outWord] } }

/-- The host's log of the words it has handed over. -/
def State.logInput (w : InWord) (s : State) : State :=
  { s with bench := { s.bench with accepted := s.bench.accepted ++ [w] } }

/-- Everything an edge does besides the operation it runs. The head of `OQ` is removed before the operation appends its
emission; whether a transfer happens is decided by the state before the edge (R134, R135). -/
def State.transfers (p : Params) (s : State) : State :=
  let s1 := if s.outTransfer then s.popOutput else s
  let s2 := if s.inTransfer p then s1.logInput s.pins.inWord else s1
  s2.consumePins

/-- One clock edge at parameters `p`, with `run` giving the operations their effect: the transfers, then the operation the
edge selects, if any (R134). -/
def clockEdge (p : Params) (run : Instr → State → Host.Outcome State Fault Refusal) (s : State) :
    Host.Outcome State Fault Refusal :=
  match s.operation p with
  | some i => run i (s.transfers p)
  | none => .next (s.transfers p)

/-- One clock edge at parameters `p`. At the defaults it is `step` of Step.lean. -/
def stepWith (p : Params) (s : State) : Host.Outcome State Fault Refusal := clockEdge p (execWith p) s

/-- The pins that present a table word: `rst` for a word of the reset pin, one offered input word otherwise. -/
def pinsPresenting : PortWord → Pins
  | .inp w => { Pins.idle with inValid := true, inEnd := wordTag w, inChar := wordLow w }
  | .pin w => { Pins.idle with rst := w.getLsbD 0 }
  | .slot _ => Pins.idle

/-- One more edge of stimulus, before those already there. -/
def State.presentNext (p : Pins) (s : State) : State :=
  { s with bench := { s.bench with stim := p :: s.bench.stim } }

end Sys2Proof.Machine
end

