-- ==== Sys2Proof/Machine/Dispatch.lean ====
section
/-! DEFINITION. The one match from an operation to its meaning. -/

namespace Sys2Proof.Machine

open Sys2Proof

/-- What an operation does to a state. -/
def exec (i : Instr) (s : State) : Host.Outcome State Fault Refusal :=
  match i with
  | .pushDec c => Sys2Proof.Machine.execPushDec c s
  | .pushUC c => Sys2Proof.Machine.execPushUC c s
  | .pushLC c => Sys2Proof.Machine.execPushLC c s
  | .pushIll c => Sys2Proof.Machine.execPushIll c s
  | .endStream ignored => Sys2Proof.Machine.execEndStream ignored s
  | .rst => Sys2Proof.Machine.execRst s
  | .symV v => Sys2Proof.Machine.execSymV v s
  | .symPad ignored => Sys2Proof.Machine.execSymPad ignored s
  | .symIll v => Sys2Proof.Machine.execSymIll v s

end Sys2Proof.Machine
end

