-- ==== Sys2Proof/Machine/Step.lean ====
section
/-! DEFINITION. One step: one rising edge of `clk` (spec/45_ports_and_clocking.md R134). -/

namespace Sys2Proof.Machine

open Sys2Proof

/-- One clock edge of the block at the defaults of R6: the transfers, then `exec` of the operation the edge selects, if
any (R134, assumption 10). Time is left out (assumption 14). -/
def step (s : State) : Host.Outcome State Fault Refusal := clockEdge Params.default exec s

/-- The state with one more edge of stimulus in front, which presents the table word `w` (assumption 7). -/
def State.withFetchWord (s : State) (nbits w : Nat) : State :=
  s.presentNext (pinsPresenting (portWordOf nbits w))

end Sys2Proof.Machine
end

