-- ==== Sys2Proof/Safety.lean ====
section
/-! DEFINITION. What a safe state is (spec/10_state.md R22), the machine at transaction level (spec/44_pipeline.md
R110), runs of clock edges, and the end of a run (spec/70_reset_and_hazards.md R181). -/

namespace Sys2Proof.Machine

open Sys2Proof

/-! ### The invariants of R22 (assumption 15) -/

/-- The canonical form of the data registers: what is not pending is zero (R22 items 2 and 3, R23). -/
abbrev Regs.Canonical (r : Regs) : Prop :=
  (r.nibf = false → r.hi = 0#4) ∧ (r.cnt = 0#2 → r.b0 = 0#8 ∧ r.b1 = 0#8) ∧ (r.cnt = 1#2 → r.b1 = 0#8)

/-- `IDX` fits in `IDX_W` bits, and its parity is `NIBF`: what R22 item 6 says of a single state, `2 * (3 * T + CNT)`
being even and `2^IDX_W` too. -/
abbrev Regs.IndexAgrees (p : Params) (r : Regs) : Prop :=
  r.idx < 2 ^ p.idxW ∧ r.idx % 2 = r.nibf.toNat

/-- The error record: zero while there is no error (R22 item 4); `ERR_INDEX == IDX` once there is one (R15); code 1
records an illegal character (R151); code 2 never occurs (R127); code 3 records 0x00, a pending nibble and the policy
`ERROR` (R18, R22 item 5). -/
abbrev Regs.RecordAgrees (p : Params) (r : Regs) : Prop :=
  (r.errCode = .noError → r.errChar = 0#8 ∧ r.errIndex = 0) ∧
  (r.errCode ≠ .noError → r.errIndex = r.idx) ∧
  (r.errCode = .invalidHexDigit → hexval r.errChar = none) ∧
  r.errCode ≠ .invalidSixBitValue ∧
  (r.errCode = .oddHexLength → r.errChar = 0#8 ∧ r.nibf = true ∧ p.oddPolicy = .error)

/-- The invariants of the registers (R22 items 1 to 6). -/
abbrev Regs.Inv (p : Params) (r : Regs) : Prop :=
  r.cnt ≠ 3#2 ∧ r.Canonical ∧ r.IndexAgrees p ∧ r.RecordAgrees p

/-- One of the 66 output words the block produces (R22 item 7, R51). -/
abbrev IsOutputWord (w : OutWord) : Prop :=
  w = endw ∨ ∃ s ∈ padSymbol :: symromRows, w = symw s

/-- The invariants of a state at legal parameters: those of the registers, a queue within its capacity (R136) and
made of output words (R22 item 7). -/
abbrev State.Inv (p : Params) (s : State) : Prop :=
  p.Legal ∧ s.regs.Inv p ∧ s.oq.length ≤ p.oqDepth ∧ ∀ w ∈ s.oq, IsOutputWord w

/-! ### The transaction level -/

/-- The block with registers `r`, an empty queue and a host that does nothing. -/
def State.ofRegs (r : Regs) : State where
  regs := r
  oq := []
  bench := { stim := [], accepted := [], delivered := [] }

/-- `step(S, w) = (S', out)` of R110, with `out` read off a queue that was empty; `none` where it has no value. -/
def txStep (p : Params) (r : Regs) (w : InWord) : Option (Regs × List OutWord) :=
  match execWith p (decodeIn w) (State.ofRegs r) with
  | .next s => some (s.regs, s.oq)
  | .fault _ => none
  | .refused _ => none

/-- The run of R110: final registers and concatenated output. It is not extended past a state without a step. -/
def txRun (p : Params) (r : Regs) : List InWord → Regs × List OutWord
  | [] => (r, [])
  | w :: ws =>
    match txStep p r w with
    | none => (r, [])
    | some (r', out) => ((txRun p r' ws).1, out ++ (txRun p r' ws).2)

/-! ### Runs of clock edges -/

/-- `n` clock edges at parameters `p`; `none` if one of them stops. -/
def runEdges (p : Params) : Nat → State → Option State
  | 0, s => some s
  | n + 1, s =>
    match stepWith p s with
    | .next t => runEdges p n t
    | .fault _ => none
    | .refused _ => none

/-- No reset edge among the edges to come. -/
abbrev State.NoResetAhead (s : State) : Prop := ∀ p ∈ s.bench.stim, p.rst = false

/-- The logs tell the run since the last reset: the registers are those of the transaction-level run on the words
accepted, and what was delivered, followed by what is queued, is its output (R137). -/
abbrev State.LogsAgree (p : Params) (s : State) : Prop :=
  s.regs = (txRun p Regs.reset s.bench.accepted).1 ∧
    s.bench.delivered ++ s.oq = (txRun p Regs.reset s.bench.accepted).2

/-! ### The end of a run (R181, assumption 18)

A run is a reset and the streams after it, so the logs, which a reset clears, are those of the run. -/

/-- A run has failed when `err_valid == 1`. -/
def State.failed (s : State) : Bool := s.regs.errValid

/-- The host has no more input words to send in this run: it presents none before the next reset edge, if there is one. -/
abbrev State.NothingToSend (s : State) : Prop :=
  ∀ p ∈ s.bench.stim.takeWhile (fun p => !p.rst), p.inValid = false

/-- The last input word sent was an `END` and its stream has completed: as many END markers have been received as `END`
words were sent in this run, with `err_valid == 0`. -/
abbrev State.LastStreamCompleted (s : State) : Prop :=
  s.bench.accepted.getLast?.map wordTag = some true ∧
    s.bench.delivered.count endw = s.bench.accepted.countP wordTag ∧ s.failed = false

/-- A run is over and successful. That the queue is empty and the registers equal `S0` follows from the rest in a run. -/
abbrev State.Succeeded (s : State) : Prop :=
  s.NothingToSend ∧ s.LastStreamCompleted ∧ s.oq = [] ∧ s.regs = Regs.reset

/-- A run that has neither failed nor succeeded is unfinished. -/
abbrev State.Unfinished (s : State) : Prop := s.failed = false ∧ ¬ s.Succeeded

end Sys2Proof.Machine
end

