-- ==== Sys2Proof/Safety/Streams.lean ====
section
/-! DEFINITION. What the document asks of whole streams, written without the machine: hex text to bytes, bytes to
Base64 (spec/44_pipeline.md R120 to R125). Claims compare the machine with these functions. -/

namespace Sys2Proof.Reference

open Sys2Proof Sys2Proof.Machine

/-- The value of a hex digit by its range (the second form of R70). -/
def digitValue (c : Byte) : Option Nibble :=
  if 0x30#8 ≤ c ∧ c ≤ 0x39#8 then some ((c - 0x30#8).truncate 4)
  else if 0x41#8 ≤ c ∧ c ≤ 0x46#8 then some ((c - 0x41#8 + 10#8).truncate 4)
  else if 0x61#8 ≤ c ∧ c ≤ 0x66#8 then some ((c - 0x61#8 + 10#8).truncate 4)
  else none

/-- The Base64 symbol of a 6-bit value by its range (the second form of R101). -/
def symbolOf (a : SlotValue) : Byte :=
  if a ≤ 25#6 then 0x41#8 + a.zeroExtend 8
  else if a ≤ 51#6 then 0x61#8 + (a.zeroExtend 8 - 26#8)
  else if a ≤ 61#6 then 0x30#8 + (a.zeroExtend 8 - 52#8)
  else if a = 62#6 then 0x2B#8
  else 0x2F#8

/-- The symbol word of the 6 bits of `t` from bit `lo` up (R35). -/
def sextet (t : BitVec 24) (lo : Nat) : OutWord := symw (symbolOf (t.extractLsb' lo 6))

/-- The output words of one triplet of 1 to 3 bytes: four slices of 24 bits, most significant first, a pad for each
missing byte (R35, R38). -/
def base64Group : List Byte → List OutWord
  | [a] => [sextet (a ++ 0#8 ++ 0#8) 18, sextet (a ++ 0#8 ++ 0#8) 12, symw padSymbol, symw padSymbol]
  | [a, b] => [sextet (a ++ b ++ 0#8) 18, sextet (a ++ b ++ 0#8) 12, sextet (a ++ b ++ 0#8) 6, symw padSymbol]
  | [a, b, c] => [sextet (a ++ b ++ c) 18, sextet (a ++ b ++ c) 12, sextet (a ++ b ++ c) 6, sextet (a ++ b ++ c) 0]
  | _ => []

/-- The symbol words of a byte sequence: triplet after triplet, the last one possibly short (R80, R120). -/
def base64Text : List Byte → List OutWord
  | a :: b :: c :: rest => base64Group [a, b, c] ++ base64Text rest
  | short => base64Group short

/-- Nibbles to bytes, first nibble high; a missing last nibble is 0 (R34, R120). -/
def bytesOf : List Nibble → List Byte
  | hi :: lo :: rest => byteOf hi lo :: bytesOf rest
  | [hi] => [byteOf hi 0#4]
  | [] => []

/-- The bytes of a text of legal characters. -/
def textBytes (cs : List Byte) : List Byte := bytesOf (cs.filterMap digitValue)

/-- Every character is a hex digit. -/
abbrev LegalText (cs : List Byte) : Prop := ∀ c ∈ cs, (digitValue c).isSome

/-- The input words of a text, one `PUSH` a character (R67: `STR`). -/
def pushWords (cs : List Byte) : List InWord := cs.map (mkWord false)

/-- The 6-bit value a symbol stands for: the address at which `SYMROM` holds it (R124). -/
def valueOf (s : Byte) : Option SlotValue :=
  ((List.range 64).find? fun a => symrom (BitVec.ofNat 6 a) == s).map (BitVec.ofNat 6)

/-- The bits of a value, most significant first. -/
def bitsMsbFirst {n : Nat} (v : BitVec n) : List Bool := (List.range n).map v.getMsbD

/-- Base64 decoding as far as bits: drop the pads, replace each symbol by its value, concatenate (R124). -/
def decodedBits (out : List OutWord) : List Bool :=
  (out.filterMap fun w => valueOf (wordLow w)).flatMap bitsMsbFirst

/-- A legal `PUSH` and the value of its character. -/
abbrev LegalPush (i : Instr) (nib : Nibble) : Prop :=
  i.wellFormed = true ∧ ∃ c, (i = .pushDec c ∨ i = .pushUC c ∨ i = .pushLC c) ∧ digitValue c = some nib

/-- The bytes buffered when `END` arrives: those of GROUPER and, under `ZERO_PAD`, the pending nibble's (R115). -/
def pendingBytes (r : Regs) : List Byte :=
  [r.b0, r.b1].take r.cnt.toNat ++ if r.nibf then [byteOf r.hi 0#4] else []

end Sys2Proof.Reference
end

