-- ==== Sys2Proof/Certificates/Slice0/Obligations.lean ====
section
/-! DEFINITION. The statements for the provers. Each docstring names the rules of spec/ its statement formalises.

Statements about the machine hold at any parameters of R6 (`execWith p`, `stepWith p`); the machine itself (`exec`,
`step`) is the instance at the defaults, which `Obligations.MachineIsTheInstanceAtTheDefaults` says and the main
statements repeat (assumption 10). -/

open Sys2Proof Sys2Proof.Machine Sys2Proof.Reference

/-! ### Encoding -/

/-- Every well-formed operation, of all three formats and with every operand its rows admit, decodes from its own word
(R59, R61). -/
def Obligations.DecodeOfEncodeIsTheInstruction : Prop :=
  ∀ i : Instr, i.wellFormed = true → decode (encode i) = .ok i

/-- The other direction: what a port word decodes to is well formed and has that very word, so no two words decode to
one operation and no word decodes to an operation of another class (R59, R61). -/
def Obligations.DecodedInstructionHasThatWord : Prop :=
  ∀ (w : PortWord) (i : Instr), decode w = .ok i → i.wellFormed = true ∧ encode i = w

/-- The counts of R59: the 512 input words are 10 `PUSH.DEC`, 6 `PUSH.UC`, 6 `PUSH.LC`, 234 `PUSH.ILL`, 256 `END`. -/
def Obligations.InputWordsPartitionByClass : Prop :=
  let count := fun (f : Instr → Bool) => ((List.range 512).filter fun n => f (decodeIn (BitVec.ofNat 9 n))).length
  count (fun | .pushDec _ => true | _ => false) = 10 ∧ count (fun | .pushUC _ => true | _ => false) = 6 ∧
    count (fun | .pushLC _ => true | _ => false) = 6 ∧ count (fun | .pushIll _ => true | _ => false) = 234 ∧
    count (fun | .endStream _ => true | _ => false) = 256

/-- R60: the comparator equations select the same operation and produce the same nibble and `valid` bit as the
operation map and `HEXLUT`, for each of the 512 words. -/
def Obligations.ComparatorTreeAgreesWithTheTable : Prop :=
  ∀ w : InWord, cmpDecodeIn w = decodeIn w ∧
    BitVec.ofBool (cmpValid (wordLow w)) ++ cmpNib (wordLow w) = hexlut (wordLow w)

/-- Words written out from the encodings of R50, R56, R59 and R61 decode to the operations they stand for. -/
def Obligations.SpelledOutWordsDecode : Prop :=
  decode (.inp 0b0_0011_0100#9) = .ok (.pushDec 0x34#8) ∧
  decode (.inp 0b0_0100_0110#9) = .ok (.pushUC 0x46#8) ∧
  decode (.inp 0b0_0110_0001#9) = .ok (.pushLC 0x61#8) ∧
  decode (.inp 0b0_0110_0111#9) = .ok (.pushIll 0x67#8) ∧
  decode (.inp 0b1_0000_0000#9) = .ok (.endStream 0x00#8) ∧
  decode (.pin 0b1#1) = .ok .rst ∧
  decode (.pin 0b0#1) = .error .resetNotAsserted ∧
  decode (.slot 0b0_0011_1111#9) = .ok (.symV 0x3F#8) ∧
  decode (.slot 0b1_0000_0000#9) = .ok (.symPad 0x00#8) ∧
  decode (.slot 0b0_0100_0000#9) = .ok (.symIll 0x40#8)

/-! ### The units -/

/-- R70: `HEXVAL`, read from `HEXLUT`, is the form "equivalently, without the table". -/
def Obligations.HexvalIsItsRangeForm : Prop := ∀ c : Byte, hexval c = digitValue c

/-- R32: the 64 rows of `SYMROM` are its arithmetic; the pad is not one of them. -/
def Obligations.SymromIsItsRangeForm : Prop :=
  (∀ a : SlotValue, symrom a = symbolOf a) ∧ symromRows.length = 64 ∧ padSymbol ∉ symromRows

/-- R104: on the legal slots `SYM` has a value, one of the 65 symbols, and is injective. -/
def Obligations.SymIsTotalAndInjectiveOnLegalSlots : Prop :=
  ∀ idx : Nat,
    let legal : Slot → Prop := fun slot => ∀ v, slot = .val v → v ≤ 63#8
    (∀ slot, legal slot → ∃ y ∈ padSymbol :: symromRows, sym slot idx = .ok y) ∧
    ∀ s1 s2, legal s1 → legal s2 → sym s1 idx = sym s2 idx → s1 = s2

/-- R95: `XLAT` is four slices of the 24 bits, a missing byte read as zero. -/
def Obligations.XlatIsFourSlices : Prop :=
  ∀ t : Triplet,
    let b1 : Byte := if t.n = .one then 0x00#8 else t.b1
    let b2 : Byte := if t.n = .three then t.b2 else 0x00#8
    let T := t.b0 ++ b1 ++ b2
    xlat t = (.val ((T.extractLsb' 18 6).zeroExtend 8), .val ((T.extractLsb' 12 6).zeroExtend 8),
      if t.n = .one then .absent else .val ((T.extractLsb' 6 6).zeroExtend 8),
      if t.n = .three then .val ((T.extractLsb' 0 6).zeroExtend 8) else .absent)

/-- R93: every value `XLAT` produces is at most 63, each of the four slots reaches 63, and so `SYM` never raises on a
slot of `XLAT`. -/
def Obligations.XlatValuesAreAtMost63 : Prop :=
  (∀ (t : Triplet) (v : Byte),
    .val v ∈ [(xlat t).1, (xlat t).2.1, (xlat t).2.2.1, (xlat t).2.2.2] → v ≤ 63#8) ∧
  xlat { n := .three, b0 := 0xFF#8, b1 := 0xFF#8, b2 := 0xFF#8 } = (.val 63#8, .val 63#8, .val 63#8, .val 63#8) ∧
  ∀ (t : Triplet) (slot : Slot) (idx : Nat),
    slot ∈ [(xlat t).1, (xlat t).2.1, (xlat t).2.2.1, (xlat t).2.2.2] → ∃ y, sym slot idx = .ok y

/-- R91: slots 0 and 1 are never absent, slot 2 is absent exactly for one byte, slot 3 exactly for fewer than three,
and the bus value of a byte that is not present is ignored; a present byte 0 gives a value, not an absent slot. -/
def Obligations.SlotPresenceDependsOnTheSizeOnly : Prop :=
  ∀ t : Triplet,
    (xlat t).1 ≠ .absent ∧ (xlat t).2.1 ≠ .absent ∧
    ((xlat t).2.2.1 = .absent ↔ t.n = .one) ∧ ((xlat t).2.2.2 = .absent ↔ t.n ≠ .three) ∧
    (∀ x y, t.n = .one → xlat { t with b1 := x, b2 := y } = xlat t) ∧
    (∀ y, t.n = .two → xlat { t with b2 := y } = xlat t) ∧
    (t.n = .three → t.b2 = 0x00#8 → (xlat t).2.2.2 = .val 0#8) ∧
    (t.n = .two → t.b1 = 0x00#8 → (xlat t).2.2.1 = .val 0#8)

/-- R97: the three worked examples of the document. -/
def Obligations.DocumentExamplesOfXlat : Prop :=
  xlat { n := .three, b0 := 77#8, b1 := 97#8, b2 := 110#8 } = (.val 19#8, .val 22#8, .val 5#8, .val 46#8) ∧
  (∀ x, xlat { n := .two, b0 := 77#8, b1 := 97#8, b2 := x } = (.val 19#8, .val 22#8, .val 4#8, .absent)) ∧
  ∀ x y, xlat { n := .one, b0 := 77#8, b1 := x, b2 := y } = (.val 19#8, .val 16#8, .absent, .absent)

/-- R102: `ENCODE4` gives four words in slot order when every slot is legal; otherwise it raises for the
lowest-numbered slot above 63 and emits nothing. -/
def Obligations.Encode4IsAllOrTheLowestOffender : Prop :=
  ∀ (s0 s1 s2 s3 : Slot) (idx : Nat),
    let legal : Slot → Prop := fun slot => ∀ v, slot = .val v → v ≤ 63#8
    let symOf : Slot → Byte := fun | .absent => 0x3D#8 | .val v => symbolOf (v.truncate 6)
    (legal s0 ∧ legal s1 ∧ legal s2 ∧ legal s3 →
      encode4 (s0, s1, s2, s3) idx = .ok [symw (symOf s0), symw (symOf s1), symw (symOf s2), symw (symOf s3)]) ∧
    ∀ (below : List Slot) (v : Byte) (above : List Slot),
      [s0, s1, s2, s3] = below ++ .val v :: above → (∀ slot ∈ below, legal slot) → 63#8 < v →
      encode4 (s0, s1, s2, s3) idx = .error (.raised .invalidSixBitValue v idx)

/-- R103: `TRANSLATE` never raises; it emits exactly four words, the Base64 group of the triplet's bytes. -/
def Obligations.TranslateIsTheBase64Group : Prop :=
  ∀ (t : Triplet) (idx : Nat),
    let group := base64Group ([t.b0, t.b1, t.b2].take t.n.count)
    translateTriplet t idx = .ok group ∧ group.length = 4

/-! ### The operations -/

/-- R111, R112, R113: what a legal `PUSH` does in each state of `(NIBF, CNT)`, as the whole next state: nothing else
changes, and it emits only when it completes a triplet. -/
def Obligations.LegalPushBuildsBytesAndTriplets : Prop :=
  ∀ (i : Instr) (nib : Nibble) (s : State), LegalPush i nib → s.regs.errCode = .noError →
    s.regs.nibf = false ∨ s.regs.cnt ≠ 3#2 →
    let r := s.regs
    let after := fun p : Params =>
      let idx' := (r.idx + 1) % 2 ^ p.idxW
      if r.nibf = false then { s with regs := { r with hi := nib, nibf := true, idx := idx' } }
      else if r.cnt = 0#2 then
        { s with regs := { r with hi := 0#4, nibf := false, b0 := byteOf r.hi nib, cnt := 1#2, idx := idx' } }
      else if r.cnt = 1#2 then
        { s with regs := { r with hi := 0#4, nibf := false, b1 := byteOf r.hi nib, cnt := 2#2, idx := idx' } }
      else
        { s with
          regs := { r with hi := 0#4, nibf := false, b0 := 0#8, b1 := 0#8, cnt := 0#2, idx := idx' }
          oq := s.oq ++ base64Group [r.b0, r.b1, byteOf r.hi nib] }
    exec i s = .next (after Params.default) ∧ ∀ p, execWith p i s = .next (after p)

/-- R112: `PUSH.UC` and `PUSH.LC` of the same letter have the same effect in every state. -/
def Obligations.LetterCaseDoesNotMatter : Prop :=
  ∀ (c : Byte) (s : State), (Instr.pushUC c).wellFormed = true →
    (Instr.pushLC (c + 0x20#8)).wellFormed = true ∧ exec (.pushUC c) s = exec (.pushLC (c + 0x20#8)) s ∧
    ∀ p, execWith p (.pushUC c) s = execWith p (.pushLC (c + 0x20#8)) s

/-- R114: an illegal character raises `InvalidHexDigit(c, IDX)` and nothing else changes. -/
def Obligations.IllegalCharacterRaisesInvalidHexDigit : Prop :=
  ∀ (c : Byte) (s : State), (Instr.pushIll c).wellFormed = true → s.regs.errCode = .noError →
    exec (.pushIll c) s = .next { s with
      regs := { s.regs with errCode := .invalidHexDigit, errChar := c, errIndex := s.regs.idx } }

/-- R115: `END` drains what is pending, emits the END marker and leaves the reset state; with a nibble pending under
`ODD_POLICY == ERROR` it raises `OddHexLength(0x00, IDX)` and nothing else changes. The default policy is `ZERO_PAD`, so
`exec` always drains. The `char` field has no effect. Draining has the invariants of R22 on the registers concerned as
premises: elsewhere a register that holds nothing pending need not be zero. -/
def Obligations.EndDrainsOrRaisesOddHexLength : Prop :=
  ∀ (ignored : Byte) (s : State), s.regs.errCode = .noError →
    let drained := { s with regs := Regs.reset, oq := s.oq ++ base64Text (pendingBytes s.regs) ++ [0x100#9] }
    (s.regs.cnt ≠ 3#2 → s.regs.Canonical → s.regs.errChar = 0#8 → s.regs.errIndex = 0 →
      exec (.endStream ignored) s = .next drained ∧
      ∀ p : Params, s.regs.nibf = false ∨ p.oddPolicy = .zeroPad →
        execWith p (.endStream ignored) s = .next drained) ∧
    ∀ p : Params, s.regs.nibf = true → p.oddPolicy = .error →
      execWith p (.endStream ignored) s = .next { s with
        regs := { s.regs with errCode := .oddHexLength, errChar := 0x00#8, errIndex := s.regs.idx } }

/-- R116: `RST` clears the nine registers and the queue, from any state. That it leaves the pins to come as they are is
the model's choice (assumption 3), no rule of the spec. -/
def Obligations.ResetClearsRegistersAndQueue : Prop :=
  ∀ s : State, ∃ t, exec .rst s = .next t ∧ t.oq = [] ∧ t.bench.stim = s.bench.stim ∧
    t.regs = { hi := 0#4, nibf := false, b0 := 0#8, b1 := 0#8, cnt := 0#2, idx := 0,
               errCode := .noError, errChar := 0#8, errIndex := 0 }

/-- R110, R156: in the error state no operation but `RST` has a successor. That the stuck outcome is a named fault, and
that it covers the rows of the symbol map too, is the model's choice (assumptions 6 and 8). -/
def Obligations.OnlyResetRunsInTheErrorState : Prop :=
  ∀ (i : Instr) (s : State), s.regs.errCode ≠ .noError → i ≠ .rst →
    exec i s = .fault .stuckInErrorState ∧ ∀ p, execWith p i s = .fault .stuckInErrorState

/-- The rows of the symbol map as operations (R61, R101; that the symbol goes to the queue as one output word is the
model's choice, assumption 6): the symbol of a value up to 63, the pad of an absent slot whatever its `v` field, the
raise of a value above 63. -/
def Obligations.SlotOperationsEmitTheirSymbol : Prop :=
  ∀ (v : Byte) (s : State), s.regs.errCode = .noError →
    (v ≤ 63#8 → exec (.symV v) s = .next { s with oq := s.oq ++ [symw (symbolOf (v.truncate 6))] }) ∧
    exec (.symPad v) s = .next { s with oq := s.oq ++ [symw 0x3D#8] } ∧
    (63#8 < v → exec (.symIll v) s = .next { s with
      regs := { s.regs with errCode := .invalidSixBitValue, errChar := v, errIndex := s.regs.idx } })

/-- The rows of the symbol map at work in the composed block (R61, R103; assumption 6): decoding the four slot-bus
words `XLAT` drives and executing the four operations one after the other emits what `TRANSLATE` emits. -/
def Obligations.TranslateIsFourSlotOperations : Prop :=
  ∀ (t : Triplet) (s : State), s.regs.errCode = .noError →
    ∃ s1 s2 s3 s4 out,
      exec (decodeSlot (xlat t).1.bus) s = .next s1 ∧ exec (decodeSlot (xlat t).2.1.bus) s1 = .next s2 ∧
      exec (decodeSlot (xlat t).2.2.1.bus) s2 = .next s3 ∧ exec (decodeSlot (xlat t).2.2.2.bus) s3 = .next s4 ∧
      translateTriplet t s.regs.idx = .ok out ∧ s4 = { s with oq := s.oq ++ out }

/-- R154: an operation that ends in the error state changes the error record and nothing else, and emits nothing. -/
def Obligations.ErrorsArePrecise : Prop :=
  ∀ (p : Params) (i : Instr) (s t : State), s.regs.errCode = .noError → execWith p i s = .next t →
    t.regs.errCode ≠ .noError →
    t = { s with regs := { s.regs with
            errCode := t.regs.errCode, errChar := t.regs.errChar, errIndex := s.regs.idx } }

/-- R118: the sizes of emissions. -/
def Obligations.EmissionSizes : Prop :=
  ∀ (p : Params) (s t : State),
    (∀ i nib, LegalPush i nib → execWith p i s = .next t →
      ∃ out, t.oq = s.oq ++ out ∧ (out.length = 0 ∨ out.length = 4)) ∧
    (∀ c, execWith p (.pushIll c) s = .next t → t.oq = s.oq) ∧
    (∀ c, execWith p (.endStream c) s = .next t →
      ∃ out, t.oq = s.oq ++ out ∧
        (t.regs.errCode = .noError → out.length = 1 ∨ out.length = 5) ∧
        (t.regs.errCode ≠ .noError → out.length = 0)) ∧
    (execWith p .rst s = .next t → t.oq = [])

/-- The frame outside the registers: no operation but `RST` touches the host's logs, removes or changes a word of the
queue, and none touches the pins to come (R40, R134; the logs and the pins to come are the model's, assumptions 3 and
4). -/
def Obligations.OperationsOnlyAppendToTheQueue : Prop :=
  ∀ (p : Params) (i : Instr) (s t : State), execWith p i s = .next t →
    t.bench.stim = s.bench.stim ∧
    (i ≠ .rst → t.bench = s.bench ∧ ∃ out, t.oq = s.oq ++ out ∧ out.length ≤ 5)

/-- R117: the control state `(NIBF, CNT)`, numbered `2 * CNT + NIBF`, advances by one modulo 6 at every legal `PUSH`;
a completed `END` returns it to 0; a raise leaves it. -/
def Obligations.ControlStateCyclesThroughSix : Prop :=
  ∀ (p : Params) (i : Instr) (s t : State), s.regs.errCode = .noError → s.regs.cnt ≠ 3#2 →
    execWith p i s = .next t →
    let pos := fun r : Regs => 2 * r.cnt.toNat + r.nibf.toNat
    (∀ nib, LegalPush i nib → pos t.regs = (pos s.regs + 1) % 6) ∧
    (∀ c, i = .endStream c → t.regs.errCode = .noError → pos t.regs = 0) ∧
    (t.regs.errCode ≠ .noError → pos t.regs = pos s.regs)

/-! ### The clock edge

A clock edge reads its input pins from the stimulus and writes the transferred words to the host's logs. Stimulus and
logs are the model's form of the outside world (assumptions 3 and 4); the rules named are about the pins. -/

/-- R134: a step runs the decoded operation. For an edge with `rst == 0`: when an input word is presented and
`in_ready` is 1, the step is `exec` of the operation the word decodes to, in the state in which the output transfer
has been made, the edge's pins are used up and the word is logged; when not, only the output transfer is made. -/
def Obligations.StepRunsTheDecodedInstruction : Prop :=
  ∀ (s : State) (pins : Pins) (rest : List Pins), s.bench.stim = pins :: rest → pins.rst = false →
    let w : InWord := mkWord pins.inEnd pins.inChar
    let q := if pins.outReady then s.oq.tail else s.oq
    let got := if pins.outReady then s.bench.delivered ++ s.oq.take 1 else s.bench.delivered
    let taken := { s with
      oq := q
      bench := { stim := rest, accepted := s.bench.accepted ++ [w], delivered := got } }
    let notTaken := { s with oq := q, bench := { s.bench with stim := rest, delivered := got } }
    (pins.inValid = true → ∀ i, decode (.inp w) = .ok i →
      (s.inReady Params.default false = true → step s = exec i taken) ∧
      ∀ p, s.inReady p false = true → stepWith p s = execWith p i taken) ∧
    (pins.inValid = false ∨ s.inReady Params.default false = false → step s = .next notTaken) ∧
    ∀ p, pins.inValid = false ∨ s.inReady p false = false → stepWith p s = .next notTaken

/-- R170: an edge with `rst == 1` resets the block, whatever else the pins say; while `rst` is 1 the block offers no word
and accepts none, so none is transferred; at the first edge after it `in_ready` is 1. That the
host's logs begin anew is the model's choice (assumption 4). -/
def Obligations.ResetEdgeHasPriority : Prop :=
  ∀ (s : State) (pins : Pins) (rest : List Pins), s.bench.stim = pins :: rest → pins.rst = true →
    let t : State := { regs := Regs.reset, oq := [], bench := { stim := rest, accepted := [], delivered := [] } }
    s.outValid pins.rst = false ∧ step s = .next t ∧
    ∀ p : Params, s.inReady p pins.rst = false ∧ stepWith p s = .next t ∧ (p.Legal → t.inReady p false = true)

/-- R131, R57: the output pins, and the error record they show; the codes on `err_code` are 0 for no error, 1 for
`InvalidHexDigit`, 2 for `InvalidSixBitValue` and 3 for `OddHexLength` (the table of R150; that `ERR_CODE` is an inductive
type behind these codes is assumption 11). -/
def Obligations.OutputPinsFollowTheState : Prop :=
  ∀ (p : Params) (s : State) (rst : Bool),
    let o := s.outPins p rst
    (o.inReady = true ↔
      rst = false ∧ s.regs.errCode = .noError ∧ s.oq.length + 5 ≤ p.oqDepth) ∧
    (o.outValid = true ↔ rst = false ∧ s.oq ≠ []) ∧
    (∀ w rest, s.oq = w :: rest → mkWord o.outEnd o.outSym = w) ∧
    (s.oq = [] → mkWord o.outEnd o.outSym = 0x000#9) ∧
    (o.errValid = true ↔ s.regs.errCode ≠ .noError) ∧
    o.errCode = s.regs.errCode.code ∧
    (o.errCode = 0#2 ↔ s.regs.errCode = .noError) ∧
    (o.errCode = 1#2 ↔ s.regs.errCode = .invalidHexDigit) ∧
    (o.errCode = 2#2 ↔ s.regs.errCode = .invalidSixBitValue) ∧
    (o.errCode = 3#2 ↔ s.regs.errCode = .oddHexLength) ∧ o.errChar = s.regs.errChar ∧ o.errIndex = s.regs.errIndex ∧
    (s.regs.errRecord p).extractLsb' (8 + p.idxW) 2 = o.errCode ∧
    (s.regs.errRecord p).extractLsb' p.idxW 8 = o.errChar ∧
    ((s.regs.errRecord p).extractLsb' 0 p.idxW).toNat = o.errIndex % 2 ^ p.idxW

/-- R24: the state after reset has the reset values of R10, an empty queue, and, at legal parameters, the invariants. That its
logs are those of a run with no word is the model's choice (assumption 4). -/
def Obligations.ResetStateIsSafe : Prop :=
  (∀ p : Params, p.Legal → State.reset.Inv p) ∧ (∀ p, State.reset.LogsAgree p) ∧ State.reset.oq = [] ∧
    State.reset.regs = {
      hi := 0#4, nibf := false, b0 := 0#8, b1 := 0#8, cnt := 0#2, idx := 0,
      errCode := .noError, errChar := 0#8, errIndex := 0 }

/-- R22: every clock edge keeps the invariants, from every state that has them. -/
def Obligations.StepKeepsTheInvariants : Prop :=
  (∀ s t : State, s.Inv Params.default → step s = .next t → t.Inv Params.default) ∧
  ∀ (p : Params) (s t : State), s.Inv p → stepWith p s = .next t → t.Inv p

/-- R126: in a running state with the invariants every one of the 512 input words gives a next state and an emission
of at most 5 words, and under `ZERO_PAD` only `PUSH.ILL` fails. -/
def Obligations.TransactionStepIsTotal : Prop :=
  ∀ (p : Params) (r : Regs) (w : InWord), r.Inv p → r.errCode = .noError →
    ∃ r' out, txStep p r w = some (r', out) ∧ out.length ≤ 5 ∧
      (p.oddPolicy = .zeroPad → r'.errCode ≠ .noError → ∃ c, decodeIn w = .pushIll c)

/-- R126, R138: no clock edge stops the machine in a state with the invariants, the error state included. -/
def Obligations.ClockEdgeNeverStops : Prop :=
  (∀ s : State, s.Inv Params.default → ∃ t, step s = .next t) ∧
  ∀ (p : Params) (s : State), s.Inv p → ∃ t, stepWith p s = .next t

/-- R127: no clock edge records `InvalidSixBitValue`, from whatever state does not already record it; so no state
reachable from reset does. -/
def Obligations.InvalidSixBitValueIsUnreachable : Prop :=
  (∀ s t : State, s.regs.errCode ≠ .invalidSixBitValue → step s = .next t →
    t.regs.errCode ≠ .invalidSixBitValue) ∧
  (∀ (p : Params) (s t : State), s.regs.errCode ≠ .invalidSixBitValue → stepWith p s = .next t →
    t.regs.errCode ≠ .invalidSixBitValue) ∧
  ∀ (p : Params) (ws : List InWord), (txRun p Regs.reset ws).1.errCode ≠ .invalidSixBitValue

/-- R156: the error state is absorbing. At an edge without `rst` no input word is taken, no register changes, and the
queue goes on being delivered in order; with `rst` the error is gone. No input word has a step, the error line is up,
and the run is not successful, as assumption 18 reads R181. -/
def Obligations.ErrorStateIsAbsorbing : Prop :=
  ∀ (p : Params) (s : State), s.regs.errCode ≠ .noError →
    s.inReady p s.pins.rst = false ∧ (∀ w, txStep p s.regs w = none) ∧
    s.regs.errValid = true ∧ ¬ s.Succeeded ∧
    ∃ t, stepWith p s = .next t ∧
      (s.pins.rst = false →
        t.regs = s.regs ∧ t.bench.accepted = s.bench.accepted ∧
        t.bench.delivered ++ t.oq = s.bench.delivered ++ s.oq ∧
        (s.pins.outReady = true → t.oq = s.oq.tail) ∧ (s.pins.outReady = false → t.oq = s.oq)) ∧
      (s.pins.rst = true → t.regs = Regs.reset ∧ t.oq = [])

/-- R136: the queue never overflows and never underflows; with `OQ_DEPTH == 5` a word is accepted only into an empty
queue, with 8 while it holds at most 3. -/
def Obligations.QueueNeverOverflowsOrUnderflows : Prop :=
  ∀ (p : Params) (s : State),
    (∀ t, s.oq.length ≤ p.oqDepth → stepWith p s = .next t → t.oq.length ≤ p.oqDepth) ∧
    (s.outTransfer = true → 0 < s.oq.length) ∧
    (s.inTransfer p = true → (p.oqDepth = 5 → s.oq = []) ∧ (p.oqDepth = 8 → s.oq.length ≤ 3))

/-- R133: an offered output word stays offered and unchanged until the host takes it or resets. -/
def Obligations.OfferedWordIsHeldUntilTaken : Prop :=
  ∀ (p : Params) (s t : State), s.pins.rst = false → s.outValid false = true → s.pins.outReady = false →
    stepWith p s = .next t →
    t.outValid false = true ∧ t.outWord = s.outWord ∧ t.bench.delivered = s.bench.delivered

/-- R137: over any edges without a reset, from any state, the words the host has received, followed by those still
queued, are those there were before, followed by the transaction-level output of the run on the words accepted at these
edges, in order; and the registers, the error record among them, are those of that run. -/
def Obligations.PortLevelRefinesTransactionLevel : Prop :=
  ∀ (p : Params) (n : Nat) (s t : State), s.NoResetAhead → runEdges p n s = some t →
    ∃ ws, t.bench.accepted = s.bench.accepted ++ ws ∧
      t.regs = (txRun p s.regs ws).1 ∧
      t.bench.delivered ++ t.oq = s.bench.delivered ++ s.oq ++ (txRun p s.regs ws).2

/-- R138: in a running state whose queue is too full, a host that keeps accepting sees `in_ready` return to 1 after
`|OQ| - (OQ_DEPTH - 5)` output transfers, having received that many words in order. -/
def Obligations.ReadyReturnsOnceTheQueueDrains : Prop :=
  ∀ (p : Params) (s : State), p.Legal → s.regs.errCode = .noError →
    let k := s.oq.length - (p.oqDepth - 5)
    k ≤ s.bench.stim.length → (∀ pins ∈ s.bench.stim.take k, pins.rst = false ∧ pins.outReady = true) →
    ∃ t, runEdges p k s = some t ∧ t.inReady p false = true ∧ t.regs = s.regs ∧
      t.bench.accepted = s.bench.accepted ∧ t.bench.delivered = s.bench.delivered ++ s.oq.take k

/-- R181, R115: with no error, the last accepted word being an `END` means that the registers equal `S0`. Every clock
edge keeps this. That the last accepted word is read off the log, which a reset clears, is the model's choice
(assumption 4). -/
def Obligations.AcceptedEndMeansResetRegisters : Prop :=
  ∀ (p : Params) (s t : State), s.Inv p →
    let back := fun u : State =>
      u.regs.errCode = .noError → u.bench.accepted.getLast?.map wordTag = some true → u.regs = Regs.reset
    back s → stepWith p s = .next t → back t

/-! ### Whole streams -/

/-- R120: the stream function, for every legal text and both policies. -/
def Obligations.StreamOutputIsBase64OfTheBytes : Prop :=
  ∀ (p : Params) (cs : List Byte) (ignored : Byte), LegalText cs →
    let run := txRun p Regs.reset (pushWords cs ++ [mkWord true ignored])
    (p.oddPolicy = .zeroPad ∨ cs.length % 2 = 0 →
      run = (Regs.reset, base64Text (textBytes cs) ++ [0x100#9])) ∧
    (p.oddPolicy = .error → cs.length % 2 = 1 →
      run.2 = base64Text ((textBytes cs).take (3 * ((cs.length - 1) / 6))) ∧
      run.1.errCode = .oddHexLength ∧ run.1.errChar = 0x00#8 ∧ run.1.errIndex = cs.length % 2 ^ p.idxW)

/-- R121, R122: a completed stream has `4 * ceil(byte_count / 3)` symbols, and its pads are trailing: none, two or one
as `byte_count % 3` is 0, 1 or 2. -/
def Obligations.StreamLengthAndPads : Prop :=
  ∀ (p : Params) (cs : List Byte) (ignored : Byte), LegalText cs →
    p.oddPolicy = .zeroPad ∨ cs.length % 2 = 0 →
    let byteCount := (cs.length + 1) / 2
    let pads := if byteCount % 3 = 0 then 0 else if byteCount % 3 = 1 then 2 else 1
    ∃ body, (txRun p Regs.reset (pushWords cs ++ [mkWord true ignored])).2
        = body ++ List.replicate pads (symw 0x3D#8) ++ [0x100#9] ∧
      symw 0x3D#8 ∉ body ∧ 0x100#9 ∉ body ∧ body.length + pads = 4 * ((byteCount + 2) / 3)

/-- R124: Base64-decoding the symbols of a completed stream gives the bits of its bytes, and the bits left over are
zero and fewer than 6. -/
def Obligations.StreamDecodesBackToItsBytes : Prop :=
  ∀ (p : Params) (cs : List Byte) (ignored : Byte), LegalText cs →
    p.oddPolicy = .zeroPad ∨ cs.length % 2 = 0 →
    ∃ k < 6, decodedBits (txRun p Regs.reset (pushWords cs ++ [mkWord true ignored])).2
      = (textBytes cs).flatMap bitsMsbFirst ++ List.replicate k false

/-- R125: a stream whose first illegal character is `c`, after the legal text `cs`, whatever words follow: the full
triplets completed before it are emitted, no END marker is, and the record holds `c` and its index. -/
def Obligations.StreamFailsAtItsFirstIllegalCharacter : Prop :=
  ∀ (p : Params) (cs : List Byte) (c : Byte) (later : List InWord), LegalText cs → digitValue c = none →
    let run := txRun p Regs.reset (pushWords cs ++ mkWord false c :: later)
    run.2 = base64Text ((textBytes cs).take (3 * (cs.length / 6))) ∧ 0x100#9 ∉ run.2 ∧
    run.1.errCode = .invalidHexDigit ∧ run.1.errChar = c ∧ run.1.errIndex = cs.length % 2 ^ p.idxW

/-- R119, R123: streams do not interact. After words that end in a completed `END`, whatever they were, the run goes
on as from reset. -/
def Obligations.StreamsDoNotInteract : Prop :=
  ∀ (p : Params) (r : Regs) (before : List InWord) (ignored : Byte) (next : List InWord), 1 ≤ p.idxW → r.Inv p →
    (txRun p r (before ++ [mkWord true ignored])).1.errCode = .noError →
    (txRun p r (before ++ [mkWord true ignored])).1 = Regs.reset ∧
    txRun p r (before ++ mkWord true ignored :: next)
      = ((txRun p Regs.reset next).1,
         (txRun p r (before ++ [mkWord true ignored])).2 ++ (txRun p Regs.reset next).2)

/-- R42: no read-ahead. After a legal text of `6k` characters, and before any `END`, exactly its `4k` symbols have been
emitted. -/
def Obligations.SymbolsAreEmittedWithoutReadAhead : Prop :=
  ∀ (p : Params) (cs : List Byte) (k : Nat), LegalText cs → cs.length = 6 * k →
    (txRun p Regs.reset (pushWords cs)).2 = base64Text (textBytes cs) ∧
    (txRun p Regs.reset (pushWords cs)).2.length = 4 * k

/-- R14, R22 item 6: after a legal text of `L` characters `IDX`, `CNT` and `NIBF` give the position in the stream, and
the block is still running. -/
def Obligations.PositionRegistersCountTheText : Prop :=
  ∀ (p : Params) (cs : List Byte), LegalText cs →
    let r := (txRun p Regs.reset (pushWords cs)).1
    r.errCode = .noError ∧ r.idx = cs.length % 2 ^ p.idxW ∧ r.cnt.toNat = cs.length / 2 % 3 ∧
      r.nibf.toNat = cs.length % 2

/-- R177: under `ZERO_PAD` a text with an odd number of digits is converted as if a `0` had been appended. -/
def Obligations.OddTextIsPaddedSilently : Prop :=
  ∀ (p : Params) (cs : List Byte) (ignored : Byte), LegalText cs → p.oddPolicy = .zeroPad → cs.length % 2 = 1 →
    txRun p Regs.reset (pushWords cs ++ [mkWord true ignored])
      = txRun p Regs.reset (pushWords (cs ++ [0x30#8]) ++ [mkWord true ignored])

/-! ### Parameters -/

/-- R6: the machine `exec`, `step` is the block at the defaults, of all the parameters it can be built with. That the
host's interface takes one instance is the model's form (assumption 10). -/
def Obligations.MachineIsTheInstanceAtTheDefaults : Prop :=
  Params.default = { oddPolicy := .zeroPad, idxW := 32, oqDepth := 8 } ∧
  (∀ i s, exec i s = execWith Params.default i s) ∧ ∀ s, step s = stepWith Params.default s

/-- R110: "the only parameters a step depends on are `ODD_POLICY` and `IDX_W`"; the operations other than a legal `PUSH`
and `END` depend on none. -/
def Obligations.OnlyOddPolicyAndIndexWidthMatterToAStep : Prop :=
  ∀ (p q : Params) (i : Instr) (s : State),
    (p.oddPolicy = q.oddPolicy → p.idxW = q.idxW → execWith p i s = execWith q i s) ∧
    (∀ c, execWith p (.pushIll c) s = exec (.pushIll c) s) ∧ execWith p .rst s = exec .rst s ∧
    (∀ v, execWith p (.symV v) s = exec (.symV v) s) ∧ (∀ v, execWith p (.symPad v) s = exec (.symPad v) s) ∧
    ∀ v, execWith p (.symIll v) s = exec (.symIll v) s

/-! ### The end of a run -/

/-- R137 between resets: every clock edge keeps the logs in agreement with the run since the last reset: the registers are
those of the transaction-level run on the words accepted, and what was delivered, followed by what is queued, is its
output. That a reset edge keeps it too rests on the model's choice that `RST` clears the logs (assumption 4). -/
def Obligations.LogsTellTheRunSinceTheLastReset : Prop :=
  (∀ s t : State, s.LogsAgree Params.default → step s = .next t → t.LogsAgree Params.default) ∧
  ∀ (p : Params) (s t : State), s.LogsAgree p → stepWith p s = .next t → t.LogsAgree p

/-- R181: a run whose host has nothing more to send, whose last word was an `END` and whose last stream has completed is
over and successful: "therefore `OQ` is empty and the registers equal `S0`"; and its whole output has been received. How the definition is read
off the pins to come and the logs is the model's (assumptions 4 and 18). -/
def Obligations.CompletedLastStreamMeansSuccess : Prop :=
  ∀ (p : Params) (s : State), p.Legal → s.LogsAgree p → s.NothingToSend → s.LastStreamCompleted →
    s.Succeeded ∧ s.bench.delivered = (txRun p Regs.reset s.bench.accepted).2

/-- A reset edge ends the run before it, whatever that run had delivered, and begins one that is neither failed nor
successful: no word of it has been sent. The statement is about the model's reading of a run: that `RST` clears the logs
is the model's choice (assumption 4), and that the end of a run is read off them and off the pins to come is deduced
(assumption 18). It rests on what the spec says of the end of a run and of a reset in the middle of a stream
(spec/70_reset_and_hazards.md). -/
def Obligations.ResetBeginsAnUnfinishedRun : Prop :=
  ∀ (p : Params) (s t : State), s.pins.rst = true → stepWith p s = .next t → t.Unfinished ∧ t.LogsAgree p
end

