-- ==== Sys2Proof/Laws/State.lean ====
section
/-! SUPPORT. One lemma per field per state update, so that no later proof unfolds an update. -/

namespace Sys2Proof.Machine

open Sys2Proof

variable (s : State) (r : Regs)

/-! ### `takeError` -/

section
variable (k : ErrorKind) (c : Byte) (n : Nat)

@[simp] theorem takeError_hi : (s.takeError k c n).regs.hi = s.regs.hi := rfl
@[simp] theorem takeError_nibf : (s.takeError k c n).regs.nibf = s.regs.nibf := rfl
@[simp] theorem takeError_b0 : (s.takeError k c n).regs.b0 = s.regs.b0 := rfl
@[simp] theorem takeError_b1 : (s.takeError k c n).regs.b1 = s.regs.b1 := rfl
@[simp] theorem takeError_cnt : (s.takeError k c n).regs.cnt = s.regs.cnt := rfl
@[simp] theorem takeError_idx : (s.takeError k c n).regs.idx = s.regs.idx := rfl
@[simp] theorem takeError_errCode : (s.takeError k c n).regs.errCode = k := rfl
@[simp] theorem takeError_errChar : (s.takeError k c n).regs.errChar = c := rfl
@[simp] theorem takeError_errIndex : (s.takeError k c n).regs.errIndex = n := rfl
@[simp] theorem takeError_oq : (s.takeError k c n).oq = s.oq := rfl
@[simp] theorem takeError_bench : (s.takeError k c n).bench = s.bench := rfl

end

/-! ### `complete` -/

section
variable (out : List OutWord)

@[simp] theorem complete_regs : (s.complete r out).regs = r := rfl
@[simp] theorem complete_oq : (s.complete r out).oq = s.oq ++ out := rfl
@[simp] theorem complete_bench : (s.complete r out).bench = s.bench := rfl

end

/-! ### `countChar` -/

section
variable (p : Params)

@[simp] theorem countChar_hi : (r.countChar p).hi = r.hi := rfl
@[simp] theorem countChar_nibf : (r.countChar p).nibf = r.nibf := rfl
@[simp] theorem countChar_b0 : (r.countChar p).b0 = r.b0 := rfl
@[simp] theorem countChar_b1 : (r.countChar p).b1 = r.b1 := rfl
@[simp] theorem countChar_cnt : (r.countChar p).cnt = r.cnt := rfl
@[simp] theorem countChar_idx : (r.countChar p).idx = (r.idx + 1) % 2 ^ p.idxW := rfl
@[simp] theorem countChar_errCode : (r.countChar p).errCode = r.errCode := rfl
@[simp] theorem countChar_errChar : (r.countChar p).errChar = r.errChar := rfl
@[simp] theorem countChar_errIndex : (r.countChar p).errIndex = r.errIndex := rfl

end

/-! ### `clearGroup` -/

@[simp] theorem clearGroup_hi : r.clearGroup.hi = r.hi := rfl
@[simp] theorem clearGroup_nibf : r.clearGroup.nibf = r.nibf := rfl
@[simp] theorem clearGroup_b0 : r.clearGroup.b0 = 0#8 := rfl
@[simp] theorem clearGroup_b1 : r.clearGroup.b1 = 0#8 := rfl
@[simp] theorem clearGroup_cnt : r.clearGroup.cnt = 0#2 := rfl
@[simp] theorem clearGroup_idx : r.clearGroup.idx = r.idx := rfl
@[simp] theorem clearGroup_errCode : r.clearGroup.errCode = r.errCode := rfl
@[simp] theorem clearGroup_errChar : r.clearGroup.errChar = r.errChar := rfl
@[simp] theorem clearGroup_errIndex : r.clearGroup.errIndex = r.errIndex := rfl

/-! ### The updates of a clock edge -/

@[simp] theorem consumePins_regs : s.consumePins.regs = s.regs := rfl
@[simp] theorem consumePins_oq : s.consumePins.oq = s.oq := rfl
@[simp] theorem consumePins_stim : s.consumePins.bench.stim = s.bench.stim.tail := rfl
@[simp] theorem consumePins_accepted : s.consumePins.bench.accepted = s.bench.accepted := rfl
@[simp] theorem consumePins_delivered : s.consumePins.bench.delivered = s.bench.delivered := rfl

@[simp] theorem popOutput_regs : s.popOutput.regs = s.regs := rfl
@[simp] theorem popOutput_oq : s.popOutput.oq = s.oq.tail := rfl
@[simp] theorem popOutput_stim : s.popOutput.bench.stim = s.bench.stim := rfl
@[simp] theorem popOutput_accepted : s.popOutput.bench.accepted = s.bench.accepted := rfl
@[simp] theorem popOutput_delivered :
    s.popOutput.bench.delivered = s.bench.delivered ++ [s.outWord] := rfl

section
variable (w : InWord)

@[simp] theorem logInput_regs : (s.logInput w).regs = s.regs := rfl
@[simp] theorem logInput_oq : (s.logInput w).oq = s.oq := rfl
@[simp] theorem logInput_stim : (s.logInput w).bench.stim = s.bench.stim := rfl
@[simp] theorem logInput_accepted : (s.logInput w).bench.accepted = s.bench.accepted ++ [w] := rfl
@[simp] theorem logInput_delivered : (s.logInput w).bench.delivered = s.bench.delivered := rfl

end

section
variable (p : Pins)

@[simp] theorem presentNext_regs : (s.presentNext p).regs = s.regs := rfl
@[simp] theorem presentNext_oq : (s.presentNext p).oq = s.oq := rfl
@[simp] theorem presentNext_stim : (s.presentNext p).bench.stim = p :: s.bench.stim := rfl
@[simp] theorem presentNext_accepted : (s.presentNext p).bench.accepted = s.bench.accepted := rfl
@[simp] theorem presentNext_delivered : (s.presentNext p).bench.delivered = s.bench.delivered := rfl

end

end Sys2Proof.Machine
end

