-- ==== Sys2Proof/Laws/Ops.lean ====
section
/-! SUPPORT. One lemma for each shared operation that says once everything it can do. -/

namespace Sys2Proof.Machine

open Sys2Proof

/-! ### Settling an effect -/

theorem running_iff {r : Regs} : r.running = true ↔ r.errCode = .noError := by
  simp [Regs.running]

theorem whenRunning_of_running {s : State} (h : s.regs.errCode = .noError) (e : Effect) :
    s.whenRunning e = s.settle e := by
  simp [State.whenRunning, running_iff.mpr h]

theorem whenRunning_of_error {s : State} (h : s.regs.errCode ≠ .noError) (e : Effect) :
    s.whenRunning e = .fault .stuckInErrorState := by
  simp [State.whenRunning, Regs.running, h]

/-- A settled effect goes on in two ways: it completes, or it takes an error. -/
theorem settle_cases {s t : State} {e : Effect} (h : s.settle e = .next t) :
    (∃ r out, e = .ok (r, out) ∧ t = s.complete r out) ∨
    (∃ k c n, e = .error (.raised k c n) ∧ t = s.takeError k c n) := by
  unfold State.settle at h
  split at h
  · exact .inl ⟨_, _, rfl, by injection h with h; exact h.symm⟩
  · exact .inr ⟨_, _, _, rfl, by injection h with h; exact h.symm⟩
  · cases h

/-- A guarded effect goes on only in the running state. -/
theorem whenRunning_cases {s t : State} {e : Effect} (h : s.whenRunning e = .next t) :
    s.regs.errCode = .noError ∧
    ((∃ r out, e = .ok (r, out) ∧ t = s.complete r out) ∨
      (∃ k c n, e = .error (.raised k c n) ∧ t = s.takeError k c n)) := by
  by_cases hr : s.regs.errCode = .noError
  · exact ⟨hr, settle_cases (whenRunning_of_running hr e ▸ h)⟩
  · rw [whenRunning_of_error hr] at h
    cases h

/-! ### HEXDEC -/

theorem pair_of_pending {r : Regs} (h : r.nibf = true) (nib : Nibble) :
    pair nib r = ({ r with hi := 0#4, nibf := false }, some (byteOf r.hi nib)) := by
  simp [pair, h]

theorem pair_of_free {r : Regs} (h : r.nibf = false) (nib : Nibble) :
    pair nib r = ({ r with hi := nib, nibf := true }, none) := by
  simp [pair, h]

/-- `PAIR_END` finds nothing, completes the byte, or raises. -/
theorem pairEnd_cases (p : Params) (r : Regs) :
    (r.nibf = false ∧ pairEnd p r = .ok (r, none)) ∨
    (r.nibf = true ∧ p.oddPolicy = .zeroPad ∧
      pairEnd p r = .ok ({ r with hi := 0#4, nibf := false }, some (byteOf r.hi 0#4))) ∨
    (r.nibf = true ∧ p.oddPolicy = .error ∧
      pairEnd p r = .error (.raised .oddHexLength 0#8 r.idx)) := by
  cases hn : r.nibf <;> cases ho : p.oddPolicy <;> simp [pairEnd, hn, ho]

/-! ### GROUPER -/

/-- `GROUP` stores the byte, or issues a full triplet, or has no meaning. -/
theorem group_cases (byte : Byte) (r : Regs) :
    (r.cnt = 0#2 ∧ group byte r = .ok ({ r with b0 := byte, cnt := 1#2 }, none)) ∨
    (r.cnt = 1#2 ∧ group byte r = .ok ({ r with b1 := byte, cnt := 2#2 }, none)) ∨
    (r.cnt = 2#2 ∧ group byte r
      = .ok (r.clearGroup, some { n := .three, b0 := r.b0, b1 := r.b1, b2 := byte })) ∨
    (r.cnt = 3#2 ∧ group byte r = .error .noSuchCount) := by
  have : r.cnt = 0#2 ∨ r.cnt = 1#2 ∨ r.cnt = 2#2 ∨ r.cnt = 3#2 := by
    generalize r.cnt = c; revert c; decide
  rcases this with h | h | h | h <;> simp [group, h]

/-- `FLUSH` finds nothing, issues a short triplet, or has no meaning. -/
theorem flush_cases (r : Regs) :
    (r.cnt = 0#2 ∧ flush r = .ok (r, none)) ∨
    (r.cnt = 1#2 ∧ flush r
      = .ok (r.clearGroup, some { n := .one, b0 := r.b0, b1 := 0#8, b2 := 0#8 })) ∨
    (r.cnt = 2#2 ∧ flush r
      = .ok (r.clearGroup, some { n := .two, b0 := r.b0, b1 := r.b1, b2 := 0#8 })) ∨
    (r.cnt = 3#2 ∧ flush r = .error .noSuchCount) := by
  have : r.cnt = 0#2 ∨ r.cnt = 1#2 ∨ r.cnt = 2#2 ∨ r.cnt = 3#2 := by
    generalize r.cnt = c; revert c; decide
  rcases this with h | h | h | h <;> simp [flush, h]

/-! ### SYMENC -/

/-- `SYM` gives the pad, a table entry, or raises for the value it was given. -/
theorem sym_cases (slot : Slot) (idx : Nat) :
    (slot = .absent ∧ sym slot idx = .ok padSymbol) ∨
    (∃ v, slot = .val v ∧ v.extractLsb' 6 2 = 0#2 ∧ sym slot idx = .ok (symrom (v.extractLsb' 0 6))) ∨
    (∃ v, slot = .val v ∧ v.extractLsb' 6 2 ≠ 0#2 ∧
      sym slot idx = .error (.raised .invalidSixBitValue v idx)) := by
  cases slot with
  | absent => exact .inl ⟨rfl, rfl⟩
  | val v =>
    by_cases h : v.extractLsb' 6 2 = 0#2
    · exact .inr (.inl ⟨v, rfl, h, by simp [sym, h]⟩)
    · exact .inr (.inr ⟨v, rfl, h, by simp [sym, h]⟩)

/-- The only raise of `ENCODE4` is `InvalidSixBitValue` at the given index; otherwise it gives four words. -/
theorem encode4_cases (slots : Slot × Slot × Slot × Slot) (idx : Nat) :
    (∃ y0 y1 y2 y3, encode4 slots idx = .ok [symw y0, symw y1, symw y2, symw y3] ∧
      sym slots.1 idx = .ok y0 ∧ sym slots.2.1 idx = .ok y1 ∧
      sym slots.2.2.1 idx = .ok y2 ∧ sym slots.2.2.2 idx = .ok y3) ∨
    (∃ v, encode4 slots idx = .error (.raised .invalidSixBitValue v idx)) := by
  have sym_or : ∀ slot, (∃ y, sym slot idx = .ok y) ∨
      ∃ v, sym slot idx = .error (.raised .invalidSixBitValue v idx) := by
    intro slot
    rcases sym_cases slot idx with ⟨-, h⟩ | ⟨v, -, -, h⟩ | ⟨v, -, -, h⟩
    · exact .inl ⟨_, h⟩
    · exact .inl ⟨_, h⟩
    · exact .inr ⟨_, h⟩
  unfold encode4
  rcases sym_or slots.1 with ⟨y0, h0⟩ | ⟨v, h0⟩
  · rcases sym_or slots.2.1 with ⟨y1, h1⟩ | ⟨v, h1⟩
    · rcases sym_or slots.2.2.1 with ⟨y2, h2⟩ | ⟨v, h2⟩
      · rcases sym_or slots.2.2.2 with ⟨y3, h3⟩ | ⟨v, h3⟩
        · exact .inl ⟨y0, y1, y2, y3, by rw [h0, h1, h2, h3]; rfl, h0, h1, h2, h3⟩
        · exact .inr ⟨v, by rw [h0, h1, h2, h3]; rfl⟩
      · exact .inr ⟨v, by rw [h0, h1, h2]; rfl⟩
    · exact .inr ⟨v, by rw [h0, h1]; rfl⟩
  · exact .inr ⟨v, by rw [h0]; rfl⟩

/-! ### The composition -/

theorem deliverByte_of_stored {byte : Byte} {r r' : Regs} (h : group byte r = .ok (r', none)) :
    deliverByte byte r = .ok (r', []) := by
  unfold deliverByte; rw [h]; rfl

theorem deliverByte_of_issued {byte : Byte} {r r' : Regs} {t : Triplet} {out : List OutWord}
    (h : group byte r = .ok (r', some t)) (ht : translateTriplet t r'.idx = .ok out) :
    deliverByte byte r = .ok (r', out) := by
  unfold deliverByte; rw [h]; show (translateTriplet t r'.idx >>= _) = _; rw [ht]; rfl

theorem drainGroup_of_empty {r r' : Regs} (h : flush r = .ok (r', none)) :
    drainGroup r = .ok (r', []) := by
  unfold drainGroup; rw [h]; rfl

theorem drainGroup_of_issued {r r' : Regs} {t : Triplet} {out : List OutWord}
    (h : flush r = .ok (r', some t)) (ht : translateTriplet t r'.idx = .ok out) :
    drainGroup r = .ok (r', out) := by
  unfold drainGroup; rw [h]; show (translateTriplet t r'.idx >>= _) = _; rw [ht]; rfl

theorem acceptNibble_of_free {p : Params} {r : Regs} (h : r.nibf = false) (nib : Nibble) :
    acceptNibble p nib r = .ok (({ r with hi := nib, nibf := true } : Regs).countChar p, []) := by
  unfold acceptNibble; rw [pair_of_free h]; rfl

theorem acceptNibble_of_pending {p : Params} {r r' : Regs} {nib : Nibble} {out : List OutWord}
    (h : r.nibf = true)
    (hd : deliverByte (byteOf r.hi nib) { r with hi := 0#4, nibf := false } = .ok (r', out)) :
    acceptNibble p nib r = .ok (r'.countChar p, out) := by
  unfold acceptNibble; rw [pair_of_pending h]
  show (deliverByte _ _ >>= _) = _; rw [hd]; rfl

theorem finishStream_of_even {p : Params} {r r' : Regs} {out : List OutWord} (h : r.nibf = false)
    (hd : drainGroup r = .ok (r', out)) :
    finishStream p r = .ok ({ r' with idx := 0 }, out ++ [endw]) := by
  unfold finishStream
  rcases pairEnd_cases p r with ⟨-, hp⟩ | ⟨hn, -⟩ | ⟨hn, -⟩
  · rw [hp]; show (drainGroup r >>= _) = _; rw [hd]; rfl
  all_goals simp [h] at hn

theorem finishStream_of_padded {p : Params} {r r1 r2 : Regs} {out1 out2 : List OutWord}
    (h : r.nibf = true) (ho : p.oddPolicy = .zeroPad)
    (h1 : deliverByte (byteOf r.hi 0#4) { r with hi := 0#4, nibf := false } = .ok (r1, out1))
    (h2 : drainGroup r1 = .ok (r2, out2)) :
    finishStream p r = .ok ({ r2 with idx := 0 }, out1 ++ out2 ++ [endw]) := by
  unfold finishStream
  rcases pairEnd_cases p r with ⟨hn, -⟩ | ⟨-, -, hp⟩ | ⟨-, hn, -⟩
  · simp [h] at hn
  · rw [hp]; show (deliverByte _ _ >>= _) = _; rw [h1]
    show (drainGroup r1 >>= _) = _; rw [h2]; rfl
  · simp [ho] at hn

theorem finishStream_of_odd_error {p : Params} {r : Regs} (h : r.nibf = true)
    (ho : p.oddPolicy = .error) :
    finishStream p r = .error (.raised .oddHexLength 0#8 r.idx) := by
  unfold finishStream
  rcases pairEnd_cases p r with ⟨hn, -⟩ | ⟨-, hn, -⟩ | ⟨-, -, hp⟩
  · simp [h] at hn
  · simp [ho] at hn
  · rw [hp]; rfl

end Sys2Proof.Machine
end

