-- ==== Sys2Proof/Laws/PerInstr.lean ====
section
/-! SUPPORT. Statements about every operation as syntax, one lemma per constructor. -/

namespace Sys2Proof.Laws

open Sys2Proof

/-- The number on the wires of a port word. -/
def portNumber : PortWord → Nat
  | .inp w => w.toNat
  | .pin w => w.toNat
  | .slot w => w.toNat

/-- The columns `mask` and `match` of the operation's row in spec/opcode_table.json; a row that fixes the whole word has
the operand in its `match`. -/
def tableRow : Instr → Nat × Nat
  | .pushDec c => (0x1FF, c.toNat)
  | .pushUC c => (0x1FF, c.toNat)
  | .pushLC c => (0x1FF, c.toNat)
  | .pushIll _ => (0x100, 0x000)
  | .endStream _ => (0x100, 0x100)
  | .rst => (0x1, 0x1)
  | .symV v => (0x1FF, v.toNat)
  | .symPad _ => (0x100, 0x100)
  | .symIll _ => (0x100, 0x000)

/-- A 9-bit word whose tag is 0 is its low byte. -/
theorem mkWord_false_toNat (b : Byte) : (mkWord false b).toNat = b.toNat := by
  revert b; decide

/-- A 9-bit word whose tag is 1 has bit 8 set. -/
theorem mkWord_true_and_0x100 (b : Byte) : (mkWord true b).toNat &&& 0x100 = 0x100 := by
  revert b; decide

/-- No byte reaches bit 8. -/
theorem byte_and_0x100 (b : Byte) : b.toNat &&& 0x100 = 0x000 := by
  revert b; decide

/-- Every byte lies inside the 9-bit mask. -/
theorem byte_and_0x1FF (b : Byte) : b.toNat &&& 0x1FF = b.toNat := by
  revert b; decide

/-! ### `RowMatch`: an operation's word matches its row of the table -/

namespace RowMatch

/-- `(word & mask) == match`, the selection rule of R59. -/
def Statement (i : Instr) : Prop := portNumber (encode i) &&& (tableRow i).1 = (tableRow i).2

theorem pushDec (c : Byte) : Statement (.pushDec c) := by
  simp only [Statement, encode, portNumber, tableRow, mkWord_false_toNat, byte_and_0x1FF]

theorem pushUC (c : Byte) : Statement (.pushUC c) := by
  simp only [Statement, encode, portNumber, tableRow, mkWord_false_toNat, byte_and_0x1FF]

theorem pushLC (c : Byte) : Statement (.pushLC c) := by
  simp only [Statement, encode, portNumber, tableRow, mkWord_false_toNat, byte_and_0x1FF]

theorem pushIll (c : Byte) : Statement (.pushIll c) := by
  simp only [Statement, encode, portNumber, tableRow, mkWord_false_toNat, byte_and_0x100]

theorem endStream (ignored : Byte) : Statement (.endStream ignored) := by
  simp only [Statement, encode, portNumber, tableRow, mkWord_true_and_0x100]

theorem rst : Statement .rst := rfl

theorem symV (v : Byte) : Statement (.symV v) := by
  simp only [Statement, encode, portNumber, tableRow, mkWord_false_toNat, byte_and_0x1FF]

theorem symPad (ignored : Byte) : Statement (.symPad ignored) := by
  simp only [Statement, encode, portNumber, tableRow, mkWord_true_and_0x100]

theorem symIll (v : Byte) : Statement (.symIll v) := by
  simp only [Statement, encode, portNumber, tableRow, mkWord_false_toNat, byte_and_0x100]

end RowMatch

end Sys2Proof.Laws
end

