-- ==== Sys2Proof/Laws/Ports.lean ====
section
/-! SUPPORT. What a clock edge can do: the operation it selects and the transfers around it. -/

namespace Sys2Proof.Machine

open Sys2Proof

variable {p : Params} {s : State}

theorem operation_of_rst (h : s.pins.rst = true) : s.operation p = some .rst := by
  simp [State.operation, h, decodePin]

theorem operation_of_transfer (h : s.inTransfer p = true) (hr : s.pins.rst = false) :
    s.operation p = some (decodeIn s.pins.inWord) := by
  simp [State.operation, h, hr, decodePin]

theorem operation_of_none (h : s.inTransfer p = false) (hr : s.pins.rst = false) : s.operation p = none := by
  simp [State.operation, h, hr, decodePin]

theorem inTransfer_of_rst (h : s.pins.rst = true) : s.inTransfer p = false := by
  simp [State.inTransfer, State.inReady, h]

theorem outTransfer_of_rst (h : s.pins.rst = true) : s.outTransfer = false := by
  simp [State.outTransfer, State.outValid, h]

/-- An input transfer needs a running block with room for a whole emission. -/
theorem inTransfer_ready (h : s.inTransfer p = true) :
    s.pins.rst = false ∧ s.regs.errCode = .noError ∧ s.oq.length + maxEmission ≤ p.oqDepth := by
  simp only [State.inTransfer, State.inReady, Regs.running, Bool.and_eq_true, Bool.not_eq_true',
    beq_iff_eq, decide_eq_true_eq] at h
  exact ⟨h.2.1.1, h.2.1.2, h.2.2⟩

variable (p s)

/-- The edge's three shapes: reset, an input transfer, neither. -/
theorem clockEdge_cases (run : Instr → State → Host.Outcome State Fault Refusal) :
    (s.pins.rst = true ∧ clockEdge p run s = run .rst s.consumePins) ∨
    (s.pins.rst = false ∧ s.inTransfer p = true ∧
      clockEdge p run s = run (decodeIn s.pins.inWord) (s.transfers p)) ∨
    (s.pins.rst = false ∧ s.inTransfer p = false ∧ clockEdge p run s = .next (s.transfers p)) := by
  unfold clockEdge
  cases hr : s.pins.rst with
  | true =>
    refine .inl ⟨rfl, ?_⟩
    rw [operation_of_rst hr]
    simp [State.transfers, inTransfer_of_rst hr, outTransfer_of_rst hr]
  | false =>
    cases hi : s.inTransfer p with
    | true => exact .inr (.inl ⟨rfl, rfl, by rw [operation_of_transfer hi hr]⟩)
    | false => exact .inr (.inr ⟨rfl, rfl, by rw [operation_of_none hi hr]⟩)

/-- The shapes of a clock edge at parameters `p`. -/
theorem stepWith_cases :
    (s.pins.rst = true ∧ stepWith p s = execWith p .rst s.consumePins) ∨
    (s.pins.rst = false ∧ s.inTransfer p = true ∧
      stepWith p s = execWith p (decodeIn s.pins.inWord) (s.transfers p)) ∨
    (s.pins.rst = false ∧ s.inTransfer p = false ∧ stepWith p s = .next (s.transfers p)) :=
  clockEdge_cases p s (execWith p)

/-- The shapes of a step. -/
theorem step_cases :
    (s.pins.rst = true ∧ step s = exec .rst s.consumePins) ∨
    (s.pins.rst = false ∧ s.inTransfer Params.default = true ∧
      step s = exec (decodeIn s.pins.inWord) (s.transfers Params.default)) ∨
    (s.pins.rst = false ∧ s.inTransfer Params.default = false ∧ step s = .next (s.transfers Params.default)) :=
  clockEdge_cases Params.default s exec

/-! ### `transfers`, field by field -/

@[simp] theorem transfers_regs : (s.transfers p).regs = s.regs := by
  unfold State.transfers; cases s.outTransfer <;> cases s.inTransfer p <;> rfl

@[simp] theorem transfers_stim : (s.transfers p).bench.stim = s.bench.stim.tail := by
  unfold State.transfers; cases s.outTransfer <;> cases s.inTransfer p <;> rfl

theorem transfers_oq :
    (s.transfers p).oq = if s.outTransfer then s.oq.tail else s.oq := by
  unfold State.transfers; cases s.outTransfer <;> cases s.inTransfer p <;> rfl

theorem transfers_delivered :
    (s.transfers p).bench.delivered
      = if s.outTransfer then s.bench.delivered ++ [s.outWord] else s.bench.delivered := by
  unfold State.transfers; cases s.outTransfer <;> cases s.inTransfer p <;> rfl

theorem transfers_accepted :
    (s.transfers p).bench.accepted
      = if s.inTransfer p then s.bench.accepted ++ [s.pins.inWord] else s.bench.accepted := by
  unfold State.transfers; cases s.outTransfer <;> cases s.inTransfer p <;> rfl

/-- No word is lost or reordered by the output transfer. -/
theorem transfers_conserve :
    (s.transfers p).bench.delivered ++ (s.transfers p).oq = s.bench.delivered ++ s.oq := by
  rw [transfers_delivered, transfers_oq]
  cases h : s.outTransfer with
  | false => rfl
  | true =>
    cases hq : s.oq with
    | nil => simp [State.outTransfer, State.outValid, hq] at h
    | cons w rest => simp [State.outWord, hq]

end Sys2Proof.Machine
end

