-- ==== Sys2Proof/Tests/Slice0.lean ====
section
/-! SUPPORT. Tests. Expected results are those of spec/95_test_vectors.md (its section is named) or follow by hand from
the rule named; the last part shows that the hypotheses of every statement can be met. -/

namespace Sys2Proof.Tests

open Sys2Proof Sys2Proof.Machine Sys2Proof.Reference

/-! ### Small states -/

/-- The next state, if there is one. -/
def nextOf : Host.Outcome State Fault Refusal → Option State
  | .next s => some s
  | .fault _ => none
  | .refused _ => none

/-- The fault, if there is one. -/
def faultOf : Host.Outcome State Fault Refusal → Option Fault
  | .next _ => none
  | .fault f => some f
  | .refused _ => none

/-- `(HI, NIBF, B0, B1, CNT, IDX | 0, 0x00, 0)`, the notation of 95_test_vectors.md. -/
def regsAt (hi : Nibble) (nibf : Bool) (b0 b1 : Byte) (cnt : BitVec 2) (idx : Nat) : Regs :=
  { Regs.reset with hi := hi, nibf := nibf, b0 := b0, b1 := b1, cnt := cnt, idx := idx }

/-- The same registers with an error recorded. -/
def failedAt (kind : ErrorKind) (char : Byte) (index : Nat) (r : Regs) : Regs :=
  { r with errCode := kind, errChar := char, errIndex := index }

/-- The default parameters with `ODD_POLICY == ERROR`. -/
def strict : Params := { Params.default with oddPolicy := .error }

/-- The block with registers `r`, nothing queued and nothing to come. -/
def at' (r : Regs) : State := State.ofRegs r

/-- What an operation leaves: registers and queue. -/
def result (i : Instr) (s : State) : Option (Regs × List OutWord) :=
  (nextOf (exec i s)).map fun t => (t.regs, t.oq)

/-- The same at other parameters. -/
def resultWith (p : Params) (i : Instr) (s : State) : Option (Regs × List OutWord) :=
  (nextOf (execWith p i s)).map fun t => (t.regs, t.oq)

/-! ### `wellFormed` refuses an operand outside its class -/

theorem test_wellFormed_refuses_pushDec : (Instr.pushDec 0x3A#8).wellFormed = false := by decide
theorem test_wellFormed_refuses_pushUC : (Instr.pushUC 0x61#8).wellFormed = false := by decide
theorem test_wellFormed_refuses_pushLC : (Instr.pushLC 0x67#8).wellFormed = false := by decide
theorem test_wellFormed_refuses_pushIll :
    (Instr.pushIll 0x30#8).wellFormed = false ∧ (Instr.pushIll 0x46#8).wellFormed = false ∧
      (Instr.pushIll 0x61#8).wellFormed = false := by decide
theorem test_wellFormed_refuses_symV : (Instr.symV 64#8).wellFormed = false := by decide
theorem test_wellFormed_refuses_symIll : (Instr.symIll 63#8).wellFormed = false := by decide

/-! ### Words written out bit by bit (R50, R56, R59, R61; vectors of sections 2 and 5) -/

theorem test_decode_pushDec :
    decodeIn 0b0_0011_0000#9 = .pushDec 0x30#8 ∧ decodeIn 0b0_0011_1001#9 = .pushDec 0x39#8 := by decide
theorem test_decode_pushUC :
    decodeIn 0b0_0100_0001#9 = .pushUC 0x41#8 ∧ decodeIn 0b0_0100_0110#9 = .pushUC 0x46#8 := by decide
theorem test_decode_pushLC :
    decodeIn 0b0_0110_0001#9 = .pushLC 0x61#8 ∧ decodeIn 0b0_0110_0110#9 = .pushLC 0x66#8 := by decide
theorem test_decode_pushIll :
    decodeIn 0b0_0010_1111#9 = .pushIll 0x2F#8 ∧ decodeIn 0b0_0011_1010#9 = .pushIll 0x3A#8 ∧
    decodeIn 0b0_0100_0000#9 = .pushIll 0x40#8 ∧ decodeIn 0b0_0100_0111#9 = .pushIll 0x47#8 ∧
    decodeIn 0b0_0110_0000#9 = .pushIll 0x60#8 ∧ decodeIn 0b0_0110_0111#9 = .pushIll 0x67#8 ∧
    decodeIn 0b0_0101_0001#9 = .pushIll 0x51#8 ∧ decodeIn 0b0_1110_0001#9 = .pushIll 0xE1#8 := by decide
theorem test_decode_endStream :
    decodeIn 0b1_0000_0000#9 = .endStream 0x00#8 ∧ decodeIn 0b1_0011_0100#9 = .endStream 0x34#8 := by decide
theorem test_decode_rst : decodePin 0b1#1 = some .rst ∧ decodePin 0b0#1 = none := by decide
theorem test_decode_symV :
    decodeSlot 0b0_0000_0000#9 = .symV 0#8 ∧ decodeSlot 0b0_0011_1111#9 = .symV 63#8 := by decide
theorem test_decode_symPad :
    decodeSlot 0b1_0000_0000#9 = .symPad 0x00#8 ∧ decodeSlot 0b1_1010_0101#9 = .symPad 0xA5#8 := by decide
theorem test_decode_symIll :
    decodeSlot 0b0_0100_0000#9 = .symIll 64#8 ∧ decodeSlot 0b0_1111_1111#9 = .symIll 255#8 := by decide

/-- Table words: two bytes are an input word, one byte is the reset pin. -/
theorem test_decodeTableWord :
    decodeTableWord 16 0x064 = some (.pushLC 0x64#8) ∧ decodeTableWord 16 0x100 = some (.endStream 0x00#8) ∧
    decodeTableWord 8 1 = some .rst ∧ decodeTableWord 8 0 = none := by decide

/-! ### The units -/

/-- Section 2: `HEXVAL` at the boundaries of the three ranges. -/
theorem test_hexval :
    [0x2F#8, 0x30#8, 0x39#8, 0x3A#8, 0x40#8, 0x41#8, 0x46#8, 0x47#8, 0x60#8, 0x61#8, 0x66#8, 0x67#8].map hexval
      = [none, some 0#4, some 9#4, none, none, some 10#4, some 15#4, none, none, some 10#4, some 15#4, none] := by
  decide

/-- Section 3: the first nibble is the high one; under `ZERO_PAD` a missing one is the low one. -/
theorem test_pair :
    pair 15#4 (regsAt 10#4 true 0#8 0#8 0#2 1) = (regsAt 0#4 false 0#8 0#8 0#2 1, some 0xAF#8) ∧
    (pairEnd Params.default (regsAt 6#4 true 0#8 0#8 0#2 1)).toOption
      = some (regsAt 0#4 false 0#8 0#8 0#2 1, some 0x60#8) := by decide

/-- Section 4: a stored zero byte is present. -/
theorem test_group_and_flush :
    (group 0#8 (regsAt 0#4 false 0#8 0#8 0#2 0)).toOption = some (regsAt 0#4 false 0#8 0#8 1#2 0, none) ∧
    (flush (regsAt 0#4 false 0#8 0#8 1#2 0)).toOption
      = some (regsAt 0#4 false 0#8 0#8 0#2 0, some { n := .one, b0 := 0#8, b1 := 0#8, b2 := 0#8 }) := by decide

/-- Section 5: slots and symbols of `(3, 0xAA, 0x55, 0xAA)`, `(2, 0x03, 0xFF)` and `(1, 0xFF)`. -/
theorem test_xlat :
    xlat { n := .three, b0 := 0xAA#8, b1 := 0x55#8, b2 := 0xAA#8 } = (.val 42#8, .val 37#8, .val 22#8, .val 42#8) ∧
    (translateTriplet { n := .two, b0 := 0x03#8, b1 := 0xFF#8, b2 := 0#8 } 0).toOption
      = some [0x041#9, 0x02F#9, 0x038#9, 0x03D#9] ∧
    (translateTriplet { n := .one, b0 := 0xFF#8, b1 := 0#8, b2 := 0#8 } 0).toOption
      = some [0x02F#9, 0x077#9, 0x03D#9, 0x03D#9] := by decide

/-- Section 5: the boundaries of the symbol ranges. -/
theorem test_symrom :
    [0#6, 25#6, 26#6, 51#6, 52#6, 61#6, 62#6, 63#6].map symrom
      = [0x41#8, 0x5A#8, 0x61#8, 0x7A#8, 0x30#8, 0x39#8, 0x2B#8, 0x2F#8] := by decide

/-- The error a computation ends in, if it is one. -/
def raisedBy {α : Type} : Except Stop α → Option Stop
  | .ok _ => none
  | .error e => some e

/-- Section 5: the lowest offending slot is reported and nothing is emitted. -/
theorem test_encode4_lowest_offender :
    raisedBy (encode4 (.val 19#8, .val 64#8, .val 200#8, .absent) 5)
      = some (.raised .invalidSixBitValue 0x40#8 5) := by decide

/-! ### The operations, one step each (section 6) -/

theorem test_pushDec_first_nibble :
    result (.pushDec 0x34#8) (at' Regs.reset) = some (regsAt 4#4 true 0#8 0#8 0#2 1, []) := by decide
theorem test_pushDec_index_wraps :
    result (.pushDec 0x30#8) (at' (regsAt 0#4 false 0#8 0#8 0#2 0xFFFFFFFF))
      = some (regsAt 0#4 true 0#8 0#8 0#2 0, []) := by decide
theorem test_pushUC_second_nibble :
    result (.pushUC 0x44#8) (at' (regsAt 4#4 true 0#8 0#8 0#2 1))
      = some (regsAt 0#4 false 0x4D#8 0#8 1#2 2, []) := by decide
theorem test_pushUC_second_byte :
    result (.pushUC 0x46#8) (at' (regsAt 15#4 true 0x4D#8 0#8 1#2 3))
      = some (regsAt 0#4 false 0x4D#8 0xFF#8 2#2 4, []) := by decide
theorem test_pushLC_completes_a_triplet :
    result (.pushLC 0x65#8) (at' (regsAt 6#4 true 0x4D#8 0x61#8 2#2 5))
      = some (regsAt 0#4 false 0#8 0#8 0#2 6, [0x054#9, 0x057#9, 0x046#9, 0x075#9]) := by decide
theorem test_pushLC_document_scenario :
    result (.pushLC 0x64#8) (at' (regsAt 6#4 true 0x6F#8 0x6F#8 2#2 5))
      = some (regsAt 0#4 false 0#8 0#8 0#2 6, [0x062#9, 0x032#9, 0x039#9, 0x074#9]) := by decide
theorem test_pushIll_raises :
    result (.pushIll 0x67#8) (at' (regsAt 6#4 true 0x4D#8 0#8 1#2 3))
      = some (failedAt .invalidHexDigit 0x67#8 3 (regsAt 6#4 true 0x4D#8 0#8 1#2 3), []) := by decide
theorem test_pushIll_in_the_error_state_has_no_step :
    faultOf (exec (.pushIll 0x67#8) (at' (failedAt .invalidHexDigit 0x67#8 3 (regsAt 6#4 true 0x4D#8 0#8 1#2 3))))
      = some .stuckInErrorState := by decide
theorem test_endStream_pads :
    result (.endStream 0x34#8) (at' (regsAt 6#4 true 0x4D#8 0#8 1#2 3))
      = some (Regs.reset, [0x054#9, 0x057#9, 0x041#9, 0x03D#9, 0x100#9]) ∧
    result (.endStream 0x00#8) (at' (regsAt 6#4 true 0x4D#8 0x61#8 2#2 5))
      = some (Regs.reset, [0x054#9, 0x057#9, 0x046#9, 0x067#9, 0x100#9]) := by decide
theorem test_endStream_odd_length_error :
    resultWith strict (.endStream 0x00#8) (at' (regsAt 6#4 true 0x4D#8 0#8 1#2 3))
      = some (failedAt .oddHexLength 0#8 3 (regsAt 6#4 true 0x4D#8 0#8 1#2 3), []) := by decide
theorem test_rst_clears :
    result .rst { at' (failedAt .invalidHexDigit 0x67#8 3 (regsAt 6#4 true 0x4D#8 0#8 1#2 3)) with oq := [0x054#9] }
      = some (Regs.reset, []) := by decide
theorem test_symV_emits :
    result (.symV 62#8) (at' Regs.reset) = some (Regs.reset, [0x02B#9]) := by decide
theorem test_symPad_ignores_the_value :
    result (.symPad 0xA5#8) (at' Regs.reset) = some (Regs.reset, [0x03D#9]) := by decide
theorem test_symIll_raises :
    result (.symIll 0x40#8) (at' (regsAt 0#4 false 0#8 0#8 0#2 6))
      = some (failedAt .invalidSixBitValue 0x40#8 6 (regsAt 0#4 false 0#8 0#8 0#2 6), []) := by decide

/-! ### The error record -/

/-- R57, R150: 42 bits with the default `IDX_W`: code 1, the character 0x67, the index 3. -/
theorem test_error_record :
    ((failedAt .invalidHexDigit 0x67#8 3 Regs.reset).errRecord Params.default).toNat
      = 0b01_01100111_00000000000000000000000000000011 ∧
    ((failedAt .oddHexLength 0x00#8 3 Regs.reset).errRecord Params.default).toNat
      = 0b11_00000000_00000000000000000000000000000011 := by decide

/-! ### Clock edges -/

/-- The pins of one edge without reset. -/
def edge (inValid : Bool) (w : InWord) (outReady : Bool) : Pins where
  rst := false
  inValid := inValid
  inEnd := wordTag w
  inChar := wordLow w
  outReady := outReady

/-- The four words still queued at the start of cycle 9 of program P8. -/
def p8queue : List OutWord := [0x051#9, 0x03D#9, 0x03D#9, 0x100#9]

/-- Program P8, cycle 9: four words queued, so the block is not ready; a word leaves and none enters. -/
theorem test_step_not_ready :
    (nextOf (step { State.reset with
      oq := p8queue, bench := { State.reset.bench with stim := [edge true 0x034#9 true] } })).map
      (fun t => (t.regs, t.oq, t.bench.accepted, t.bench.delivered))
      = some (Regs.reset, [0x03D#9, 0x03D#9, 0x100#9], [], [0x051#9]) := by decide

/-- Program P8, cycle 10: both transfers at one edge. -/
theorem test_step_both_transfers :
    (nextOf (step { State.reset with
      oq := p8queue.tail, bench := { State.reset.bench with stim := [edge true 0x034#9 true] } })).map
      (fun t => (t.regs, t.oq, t.bench.accepted, t.bench.delivered))
      = some (regsAt 4#4 true 0#8 0#8 0#2 1, [0x03D#9, 0x100#9], [0x034#9], [0x03D#9]) := by decide

/-- Program P8, cycle 0: at a reset edge the presented word is not taken. -/
theorem test_step_reset_edge :
    (nextOf (step { at' (regsAt 6#4 true 0x4D#8 0#8 1#2 3) with
      oq := [0x054#9]
      bench := { State.reset.bench with stim := [{ edge true 0x034#9 true with rst := true }] } })).map
      (fun t => (t.regs, t.oq, t.bench.accepted, t.bench.delivered))
      = some (Regs.reset, [], [], []) := by decide

/-- The next step after `withFetchWord` runs the word. -/
theorem test_step_runs_the_fetch_word :
    (nextOf (step (State.reset.withFetchWord 16 0x064))).map (·.regs)
      = some (regsAt 13#4 true 0#8 0#8 0#2 1) ∧
    (nextOf (step (State.reset.withFetchWord 16 0x100))).map (·.oq) = some [0x100#9] ∧
    (nextOf (step (State.reset.withFetchWord 8 1))).map (·.regs) = some Regs.reset := by decide

/-! ### The end of a run (R181) -/

/-- The host's side of a run that sent `accepted` and received `delivered`, with `stim` still to come. -/
def afterRun (accepted : List InWord) (delivered : List OutWord) (stim : List Pins) : State :=
  { State.reset with bench := { stim := stim, accepted := accepted, delivered := delivered } }

/-- The empty stream is over once its marker has been received; idle edges may still come, and so may the next run. -/
theorem test_succeeded_with_edges_left :
    (afterRun [0x100#9] [0x100#9] []).Succeeded ∧
    (afterRun [0x100#9] [0x100#9] [edge false 0x034#9 true, edge false 0x034#9 false]).Succeeded ∧
    (afterRun [0x100#9] [0x100#9] [{ Pins.idle with rst := true }, edge true 0x034#9 true]).Succeeded := by decide

/-- Not over: a word still to be sent, the marker not received, a second stream not closed, its marker not received. -/
theorem test_unfinished :
    (afterRun [0x100#9] [0x100#9] [edge false 0x034#9 true, edge true 0x034#9 true]).Unfinished ∧
    { afterRun [0x100#9] [] [] with oq := [0x100#9] }.Unfinished ∧
    { afterRun [0x100#9, 0x034#9] [0x100#9] [] with regs := regsAt 4#4 true 0#8 0#8 0#2 1 }.Unfinished ∧
    { afterRun [0x100#9, 0x100#9] [0x100#9] [] with oq := [0x100#9] }.Unfinished := by decide

/-- Stream A delivered, the `END` of stream B taken, then a reset before its marker was received: the run that begins
is not successful, though nothing is left to send and the registers equal `S0`. -/
theorem test_reset_before_the_last_marker_is_no_success :
    (nextOf (step { afterRun [0x100#9, 0x100#9] [0x100#9] [{ Pins.idle with rst := true }] with
      oq := [0x100#9] })).map (fun t => decide t.Succeeded) = some false := by decide

/-- The same when stream B ended in `OddHexLength` before the reset; before it, the run has failed. -/
theorem test_reset_after_a_failed_end_is_no_success :
    let s : State := { afterRun [0x100#9, 0x034#9, 0x100#9] [0x100#9] [{ Pins.idle with rst := true }] with
      regs := failedAt .oddHexLength 0x00#8 1 (regsAt 4#4 true 0#8 0#8 0#2 1) }
    s.failed = true ∧ ¬ s.Succeeded ∧ (nextOf (stepWith strict s)).map (fun t => decide t.Succeeded) = some false := by
  decide

/-! ### The reference functions on the documented streams (section 7) -/

/-- `HEX "deadBEEF"` is `3q2+7w==`. -/
theorem test_reference_text :
    base64Text (textBytes [0x64#8, 0x65#8, 0x61#8, 0x64#8, 0x42#8, 0x45#8, 0x45#8, 0x46#8])
      = [0x33#8, 0x71#8, 0x32#8, 0x2B#8, 0x37#8, 0x77#8, 0x3D#8, 0x3D#8].map symw := by decide

/-! ### Witnesses: the hypotheses of every statement can be met, each clause at the edge of its range -/

theorem witness_DecodeOfEncodeIsTheInstruction :
    (Instr.pushDec 0x30#8).wellFormed ∧ (Instr.pushDec 0x39#8).wellFormed ∧ (Instr.pushUC 0x41#8).wellFormed ∧
    (Instr.pushUC 0x46#8).wellFormed ∧ (Instr.pushLC 0x61#8).wellFormed ∧ (Instr.pushLC 0x66#8).wellFormed ∧
    (Instr.pushIll 0x00#8).wellFormed ∧ (Instr.pushIll 0xFF#8).wellFormed ∧ (Instr.endStream 0xFF#8).wellFormed ∧
    Instr.rst.wellFormed ∧ (Instr.symV 63#8).wellFormed ∧ (Instr.symPad 0xFF#8).wellFormed ∧
    (Instr.symIll 64#8).wellFormed := by decide

theorem witness_DecodedInstructionHasThatWord :
    decode (.inp 0x1FF#9) = .ok (.endStream 0xFF#8) ∧ decode (.pin 1#1) = .ok .rst ∧
      decode (.slot 0x040#9) = .ok (.symIll 64#8) := ⟨rfl, rfl, rfl⟩

theorem witness_SymIsTotalAndInjectiveOnLegalSlots :
    (∀ v : Byte, Slot.val 63#8 = .val v → v ≤ 63#8) ∧ (∀ v : Byte, Slot.absent = .val v → v ≤ 63#8) ∧
      sym (.val 63#8) 0 = sym (.val 63#8) 0 := ⟨by decide, by decide, rfl⟩

theorem witness_XlatValuesAreAtMost63 :
    let t : Triplet := { n := .three, b0 := 0xFF#8, b1 := 0xFF#8, b2 := 0xFF#8 }
    Slot.val 63#8 ∈ [(xlat t).1, (xlat t).2.1, (xlat t).2.2.1, (xlat t).2.2.2] := by decide

theorem witness_SlotPresenceDependsOnTheSizeOnly :
    ∃ t1 t2 t3 : Triplet, t1.n = .one ∧ t2.n = .two ∧ t2.b1 = 0x00#8 ∧ t3.n = .three ∧ t3.b2 = 0x00#8 :=
  ⟨⟨.one, 0#8, 0#8, 0#8⟩, ⟨.two, 0#8, 0#8, 0#8⟩, ⟨.three, 0#8, 0#8, 0#8⟩, by decide⟩

theorem witness_Encode4IsAllOrTheLowestOffender :
    (∀ v : Byte, Slot.val 63#8 = .val v → v ≤ 63#8) ∧ (∀ v : Byte, Slot.val 0#8 = .val v → v ≤ 63#8) ∧
    (∀ v : Byte, Slot.absent = .val v → v ≤ 63#8) ∧
    [Slot.val 63#8, .val 64#8, .val 200#8, .absent] = [.val 63#8] ++ .val 64#8 :: [.val 200#8, .absent] ∧
    63#8 < (64#8 : Byte) := by decide

/-- The four clauses of the statement on legal `PUSH` words, with a character of each class. -/
theorem witness_LegalPushBuildsBytesAndTriplets :
    LegalPush (.pushDec 0x30#8) 0#4 ∧ LegalPush (.pushDec 0x39#8) 9#4 ∧ LegalPush (.pushUC 0x41#8) 10#4 ∧
    LegalPush (.pushUC 0x46#8) 15#4 ∧ LegalPush (.pushLC 0x61#8) 10#4 ∧ LegalPush (.pushLC 0x66#8) 15#4 ∧
    (∀ s ∈ [at' Regs.reset, at' (regsAt 4#4 true 0#8 0#8 0#2 1), at' (regsAt 4#4 true 1#8 0#8 1#2 3),
      at' (regsAt 4#4 true 1#8 2#8 2#2 5), at' (regsAt 0#4 false 0#8 0#8 3#2 0)],
      s.regs.errCode = .noError ∧ (s.regs.nibf = false ∨ s.regs.cnt ≠ 3#2)) :=
  ⟨⟨rfl, _, .inl rfl, rfl⟩, ⟨rfl, _, .inl rfl, rfl⟩, ⟨rfl, _, .inr (.inl rfl), rfl⟩, ⟨rfl, _, .inr (.inl rfl), rfl⟩,
    ⟨rfl, _, .inr (.inr rfl), rfl⟩, ⟨rfl, _, .inr (.inr rfl), rfl⟩, by decide⟩

theorem witness_LetterCaseDoesNotMatter :
    (Instr.pushUC 0x41#8).wellFormed = true ∧ (Instr.pushUC 0x46#8).wellFormed = true := by decide

theorem witness_IllegalCharacterRaisesInvalidHexDigit :
    (Instr.pushIll 0x2F#8).wellFormed = true ∧ (Instr.pushIll 0xFF#8).wellFormed = true ∧
      (at' Regs.reset).regs.errCode = .noError := by decide

/-- Both clauses of the statement on `END`: nothing pending, a short triplet, a pending nibble under each policy. -/
theorem witness_EndDrainsOrRaisesOddHexLength :
    (∀ s ∈ [at' Regs.reset, at' (regsAt 0#4 false 0x4D#8 0x61#8 2#2 4), at' (regsAt 6#4 true 0x4D#8 0x61#8 2#2 5)],
      s.regs.errCode = .noError ∧ s.regs.cnt ≠ 3#2 ∧ s.regs.Canonical ∧ s.regs.errChar = 0#8 ∧ s.regs.errIndex = 0 ∧
        (s.regs.nibf = false ∨ Params.default.oddPolicy = .zeroPad)) ∧
    (at' (regsAt 6#4 true 0#8 0#8 0#2 1)).regs.nibf = true ∧ strict.oddPolicy = .error := by decide

/-- The error state of the witnesses: an illegal character after 3 characters. -/
def failedState : State := at' (failedAt .invalidHexDigit 0x67#8 3 (regsAt 6#4 true 0x4D#8 0#8 1#2 3))

theorem witness_OnlyResetRunsInTheErrorState :
    failedState.regs.errCode ≠ .noError ∧ Instr.endStream 0x00#8 ≠ .rst := by decide

theorem witness_SlotOperationsEmitTheirSymbol :
    (at' Regs.reset).regs.errCode = .noError ∧ (63#8 : Byte) ≤ 63#8 ∧ 63#8 < (64#8 : Byte) := by decide

theorem witness_TranslateIsFourSlotOperations : (at' Regs.reset).regs.errCode = .noError := by decide

theorem witness_ErrorsArePrecise :
    (∃ t, execWith Params.default (.pushIll 0x67#8) (at' (regsAt 6#4 true 0x4D#8 0#8 1#2 3)) = .next t ∧
      t.regs.errCode ≠ .noError) ∧
    ∃ t, execWith strict (.endStream 0x00#8) (at' (regsAt 6#4 true 0x4D#8 0#8 1#2 3)) = .next t ∧
      t.regs.errCode ≠ .noError := ⟨⟨_, rfl, by decide⟩, _, rfl, by decide⟩

/-- A next state for each clause: a triplet completed, an illegal character, a stream closed, one refused, a reset. -/
theorem witness_EmissionSizes :
    (∃ t, LegalPush (.pushDec 0x30#8) 0#4 ∧
      execWith Params.default (.pushDec 0x30#8) (at' (regsAt 4#4 true 1#8 2#8 2#2 5)) = .next t) ∧
    (∃ t, execWith Params.default (.pushIll 0x67#8) (at' Regs.reset) = .next t) ∧
    (∃ t, execWith Params.default (.endStream 0x00#8) (at' Regs.reset) = .next t ∧ t.regs.errCode = .noError) ∧
    (∃ t, execWith strict (.endStream 0x00#8) (at' (regsAt 6#4 true 0#8 0#8 0#2 1)) = .next t ∧
      t.regs.errCode ≠ .noError) ∧
    (∃ t, execWith Params.default .rst failedState = .next t) :=
  ⟨⟨_, ⟨rfl, _, .inl rfl, rfl⟩, rfl⟩, ⟨_, rfl⟩, ⟨_, rfl, by decide⟩, ⟨_, rfl, by decide⟩, ⟨_, rfl⟩⟩

theorem witness_OperationsOnlyAppendToTheQueue :
    ∃ t, execWith Params.default (.endStream 0x00#8) (at' (regsAt 0#4 false 1#8 0#8 1#2 2)) = .next t ∧
      Instr.endStream 0x00#8 ≠ .rst := ⟨_, rfl, by decide⟩

theorem witness_ControlStateCyclesThroughSix :
    (∃ t, execWith Params.default (.pushLC 0x66#8) (at' (regsAt 4#4 true 1#8 2#8 2#2 5)) = .next t ∧ LegalPush (.pushLC 0x66#8) 15#4) ∧
    (∃ t, execWith Params.default (.endStream 0x00#8) (at' (regsAt 4#4 true 1#8 2#8 2#2 5)) = .next t ∧ t.regs.errCode = .noError) ∧
    (∃ t, execWith Params.default (.pushIll 0x67#8) (at' (regsAt 4#4 true 1#8 2#8 2#2 5)) = .next t ∧ t.regs.errCode ≠ .noError) ∧
    (at' (regsAt 4#4 true 1#8 2#8 2#2 5)).regs.errCode = .noError ∧ (2#2 : BitVec 2) ≠ 3#2 :=
  ⟨⟨_, rfl, rfl, _, .inr (.inr rfl), rfl⟩, ⟨_, rfl, by decide⟩, ⟨_, rfl, by decide⟩, by decide⟩

/-- A state with these pins at its next edge. -/
def facing (pins : List Pins) (oq : List OutWord) (r : Regs) : State :=
  { State.ofRegs r with oq := oq, bench := { State.reset.bench with stim := pins } }

/-- Both clauses: a word taken with the queue as full as it may be, a word turned away, no word presented. -/
theorem witness_StepRunsTheDecodedInstruction :
    (facing [edge true 0x034#9 true] p8queue.tail Regs.reset).inReady Params.default false = true ∧
    decode (.inp (mkWord (edge true 0x034#9 true).inEnd (edge true 0x034#9 true).inChar)) = .ok (.pushDec 0x34#8) ∧
    (facing [edge true 0x034#9 true] p8queue Regs.reset).inReady Params.default false = false ∧
    (facing [edge true 0x034#9 true] p8queue Regs.reset).bench.stim = edge true 0x034#9 true :: [] ∧
    (edge true 0x034#9 true).rst = false ∧ (edge false 0x034#9 true).inValid = false :=
  ⟨rfl, rfl, rfl, rfl, rfl, rfl⟩

theorem witness_ResetEdgeHasPriority :
    let p : Pins := { edge true 0x034#9 true with rst := true }
    (facing [p] p8queue Regs.reset).bench.stim = p :: [] ∧ p.rst = true ∧ Params.default.Legal := by decide

/-- A queued word and none, and each of the four error codes. -/
theorem witness_OutputPinsFollowTheState :
    (facing [] p8queue Regs.reset).oq = 0x051#9 :: [0x03D#9, 0x03D#9, 0x100#9] ∧ (facing [] [] Regs.reset).oq = [] ∧
    ([(.noError, 0#2), (.invalidHexDigit, 1#2), (.invalidSixBitValue, 2#2), (.oddHexLength, 3#2)] :
      List (ErrorKind × BitVec 2)).all (fun (kind, code) =>
        ((at' (failedAt kind 0x00#8 0 Regs.reset)).outPins Params.default false).errCode == code) = true := by decide

/-- A state with the invariants in the middle of a stream, with words queued and a word presented. -/
def busy : State := facing [edge true 0x065#9 true] [0x03D#9, 0x100#9] (regsAt 6#4 true 0x4D#8 0x61#8 2#2 5)

theorem witness_StepKeepsTheInvariants : 
    busy.Inv Params.default ∧ (∃ t, step busy = .next t) ∧ failedState.Inv strict ∧
      ∃ t, stepWith strict failedState = .next t := ⟨by decide, ⟨_, rfl⟩, by decide, _, rfl⟩

theorem witness_TransactionStepIsTotal :
    busy.regs.Inv Params.default ∧ busy.regs.errCode = .noError ∧ Params.default.oddPolicy = .zeroPad ∧
    ∃ r' out, txStep Params.default busy.regs 0x067#9 = some (r', out) ∧ r'.errCode ≠ .noError :=
  ⟨by decide, by decide, rfl, _, _, rfl, by decide⟩

theorem witness_ClockEdgeNeverStops :
    busy.Inv Params.default ∧ failedState.Inv strict := ⟨by decide, by decide⟩

theorem witness_InvalidSixBitValueIsUnreachable :
    busy.regs.errCode ≠ .invalidSixBitValue ∧ (∃ t, step busy = .next t) ∧
      ∃ t, stepWith strict busy = .next t := ⟨by decide, ⟨_, rfl⟩, _, rfl⟩

theorem witness_ErrorStateIsAbsorbing :
    failedState.regs.errCode ≠ .noError ∧ failedState.pins.rst = false ∧ failedState.pins.outReady = false ∧
    (failedState.presentNext { Pins.idle with rst := true }).pins.rst = true ∧
    (failedState.presentNext { Pins.idle with outReady := true }).pins.outReady = true := by decide

/-- The three clauses: a queue within its capacity, an output transfer, an input transfer at each of the two depths. -/
theorem witness_QueueNeverOverflowsOrUnderflows :
    (busy.oq.length ≤ Params.default.oqDepth ∧ ∃ t, stepWith Params.default busy = .next t) ∧ busy.outTransfer = true ∧
    (busy.inTransfer Params.default = true ∧ Params.default.oqDepth = 8) ∧
    { busy with oq := [] }.inTransfer { Params.default with oqDepth := 5 } = true :=
  ⟨⟨by decide, _, rfl⟩, by decide, by decide, by decide⟩

theorem witness_OfferedWordIsHeldUntilTaken :
    let s := facing [edge true 0x065#9 false] [0x03D#9] Regs.reset
    s.pins.rst = false ∧ s.outValid false = true ∧ s.pins.outReady = false ∧
      ∃ t, stepWith Params.default s = .next t := ⟨rfl, rfl, rfl, _, rfl⟩

theorem witness_PortLevelRefinesTransactionLevel :
    busy.NoResetAhead ∧ ∃ t, runEdges Params.default 2 busy = some t := ⟨by decide, _, rfl⟩

theorem witness_ReadyReturnsOnceTheQueueDrains :
    let s := facing [edge true 0x034#9 true] p8queue Regs.reset
    let k := s.oq.length - (Params.default.oqDepth - 5)
    Params.default.Legal ∧ s.regs.errCode = .noError ∧ k = 1 ∧ k ≤ s.bench.stim.length ∧
      ∀ p ∈ s.bench.stim.take k, p.rst = false ∧ p.outReady = true := by decide

/-- A state that holds with its last accepted word an `END`, and one in which the next edge takes an `END`. -/
theorem witness_AcceptedEndMeansResetRegisters :
    let s := { facing [edge true 0x100#9 true] [] Regs.reset with
      bench := { State.reset.bench with stim := [edge true 0x100#9 true], accepted := [0x100#9] } }
    s.Inv Params.default ∧ s.regs.errCode = .noError ∧ s.bench.accepted.getLast?.map wordTag = some true ∧ s.regs = Regs.reset ∧
      ∃ t, stepWith Params.default s = .next t := ⟨by decide, rfl, rfl, rfl, _, rfl⟩

/-- `4d6`, an odd text, and `4D`, an even one. -/
def oddText : List Byte := [0x34#8, 0x64#8, 0x36#8]
/-- See `oddText`. -/
def evenText : List Byte := [0x34#8, 0x44#8]

theorem witness_StreamOutputIsBase64OfTheBytes :
    LegalText [] ∧ LegalText oddText ∧ Params.default.oddPolicy = .zeroPad ∧ LegalText evenText ∧
      evenText.length % 2 = 0 ∧ strict.oddPolicy = .error ∧ oddText.length % 2 = 1 := by decide

theorem witness_StreamLengthAndPads :
    LegalText oddText ∧ Params.default.oddPolicy = .zeroPad ∧ LegalText evenText ∧ evenText.length % 2 = 0 := by decide

theorem witness_StreamDecodesBackToItsBytes :
    LegalText oddText ∧ Params.default.oddPolicy = .zeroPad ∧ LegalText evenText ∧ evenText.length % 2 = 0 := by decide

theorem witness_StreamFailsAtItsFirstIllegalCharacter :
    LegalText [] ∧ LegalText oddText ∧ digitValue 0x67#8 = none ∧ digitValue 0xFF#8 = none := by decide

theorem witness_StreamsDoNotInteract :
    1 ≤ Params.default.idxW ∧ Regs.reset.Inv Params.default ∧
      (txRun Params.default Regs.reset (pushWords oddText ++ [mkWord true 0x00#8])).1.errCode = .noError := by decide

theorem witness_SymbolsAreEmittedWithoutReadAhead :
    LegalText (oddText ++ oddText) ∧ (oddText ++ oddText).length = 6 * 1 ∧ LegalText [] ∧
      ([] : List Byte).length = 6 * 0 := by decide

theorem witness_PositionRegistersCountTheText : LegalText oddText := by decide

theorem witness_OddTextIsPaddedSilently :
    LegalText oddText ∧ Params.default.oddPolicy = .zeroPad ∧ oddText.length % 2 = 1 := by decide

/-- Two parameter sets that differ in the queue depth alone, and one that differs in the policy. -/
theorem witness_OnlyOddPolicyAndIndexWidthMatterToAStep :
    Params.default ≠ { Params.default with oqDepth := 5 } ∧
    ({ Params.default with oqDepth := 5 } : Params).oddPolicy = Params.default.oddPolicy ∧
    ({ Params.default with oqDepth := 5 } : Params).idxW = Params.default.idxW := by decide

/-- A stream that was sent whole, its marker received, with an idle edge and the next run still to come. -/
def doneState : State := afterRun [0x100#9] [0x100#9] [edge false 0x034#9 true, { Pins.idle with rst := true }]

/-- A running edge that takes a word and delivers one, and a reset edge. -/
theorem witness_LogsTellTheRunSinceTheLastReset :
    let s := { facing [edge true 0x034#9 true] [0x100#9] Regs.reset with
      bench := { stim := [edge true 0x034#9 true], accepted := [0x100#9], delivered := [] } }
    s.LogsAgree Params.default ∧ s.inTransfer Params.default = true ∧ s.outTransfer = true ∧
      (∃ t, step s = .next t) ∧ s.LogsAgree strict ∧ ∃ t, stepWith strict s = .next t :=
  ⟨by decide, rfl, rfl, ⟨_, rfl⟩, by decide, _, rfl⟩

theorem witness_CompletedLastStreamMeansSuccess :
    Params.default.Legal ∧ doneState.LogsAgree Params.default ∧ doneState.NothingToSend ∧
      doneState.LastStreamCompleted := by decide

theorem witness_ResetBeginsAnUnfinishedRun :
    let s := { failedState with bench := { doneState.bench with stim := [{ Pins.idle with rst := true }] } }
    s.pins.rst = true ∧ ∃ t, stepWith Params.default s = .next t := ⟨rfl, _, rfl⟩

end Sys2Proof.Tests
end

section
/-! PROOFS. The machine as the instance of the block at the default parameters (R6, assumption 10). -/

namespace Sys2Proof.Machine

open Sys2Proof

/-- The match of `exec` and that of `execWith` name the same meaning for each operation: where one is given at any
parameters, `exec` names it at the defaults. -/
theorem exec_eq_execWith_default (i : Instr) (s : State) : exec i s = execWith Params.default i s := by
  cases i with
  | pushDec c => rfl
  | pushUC c => rfl
  | pushLC c => rfl
  | pushIll c => rfl
  | endStream ignored => rfl
  | rst => rfl
  | symV v => rfl
  | symPad ignored => rfl
  | symIll v => rfl

/-- Both steps are one clock edge around their operations, so what holds of the operations carries over. -/
theorem step_eq_stepWith_default (s : State) : step s = stepWith Params.default s := by
  have operations : exec = execWith Params.default := funext₂ exec_eq_execWith_default
  rw [step, stepWith, operations]

/-- Settles O49: the default parameters are those of R6, and the operations and the clock edge agree at them. -/
theorem machineIsTheInstanceAtTheDefaults : Obligations.MachineIsTheInstanceAtTheDefaults := by
  unfold Obligations.MachineIsTheInstanceAtTheDefaults
  exact ⟨rfl, exec_eq_execWith_default, step_eq_stepWith_default⟩

end Sys2Proof.Machine
end

section
/-! PROOFS. What the units deliver while `CNT` is in range: the translation of a triplet never raises (R93), so `GROUP`
and `FLUSH` come with their exact registers, and every emission is short and made of output words (R118, R22). -/

namespace Sys2Proof.Machine

open Sys2Proof

/-! ### Emissions -/

/-- An emission of at most `n` words, each one of the 66 output words (R118, R22 item 7). -/
abbrev EmissionWithin (n : Nat) (out : List OutWord) : Prop :=
  out.length ≤ n ∧ ∀ w ∈ out, IsOutputWord w

theorem emissionWithin_nil (n : Nat) : EmissionWithin n [] := by simp [EmissionWithin]

theorem emissionWithin_endw : EmissionWithin 1 [endw] := by simp [EmissionWithin, IsOutputWord]

theorem EmissionWithin.mono {m n : Nat} {out : List OutWord} (h : EmissionWithin m out) (hmn : m ≤ n) :
    EmissionWithin n out :=
  ⟨h.1.trans hmn, h.2⟩

theorem EmissionWithin.append {m n : Nat} {out1 out2 : List OutWord} (h1 : EmissionWithin m out1)
    (h2 : EmissionWithin n out2) : EmissionWithin (m + n) (out1 ++ out2) := by
  obtain ⟨len1, words1⟩ := h1
  obtain ⟨len2, words2⟩ := h2
  refine ⟨by rw [List.length_append]; omega, fun w hw => ?_⟩
  exact (List.mem_append.mp hw).elim (words1 w) (words2 w)

/-! ### The translation of a triplet -/

theorem symrom_mem_symromRows (a : SlotValue) : symrom a ∈ symromRows := by
  revert a; decide

/-- Whatever `SYM` gives is one of the 65 symbols. -/
theorem isOutputWord_of_sym {slot : Slot} {idx : Nat} {y : Byte} (h : sym slot idx = .ok y) :
    IsOutputWord (symw y) := by
  rcases sym_cases slot idx with ⟨-, hy⟩ | ⟨v, -, -, hy⟩ | ⟨v, -, -, hy⟩ <;> rw [h] at hy <;> cases hy
  · exact .inr ⟨_, List.mem_cons_self, rfl⟩
  · exact .inr ⟨_, List.mem_cons_of_mem _ (symrom_mem_symromRows _), rfl⟩

/-- A slot whose value, if it has one, fits in 6 bits (R93). -/
def Slot.FitsSixBits (slot : Slot) : Prop := ∀ v, slot = .val v → v.extractLsb' 6 2 = 0#2

theorem Slot.fitsSixBits_absent : Slot.absent.FitsSixBits := nofun

theorem Slot.fitsSixBits_val {v : Byte} (h : v.extractLsb' 6 2 = 0#2) : (Slot.val v).FitsSixBits := by
  rintro _ ⟨⟩; exact h

/-- `SYM` has a value on a slot that fits. -/
theorem sym_of_fitsSixBits {slot : Slot} (h : slot.FitsSixBits) (idx : Nat) : ∃ y, sym slot idx = .ok y := by
  rcases sym_cases slot idx with ⟨-, hy⟩ | ⟨v, -, -, hy⟩ | ⟨v, hv, wide, -⟩
  · exact ⟨_, hy⟩
  · exact ⟨_, hy⟩
  · exact absurd (h v hv) wide

/-- A shift right by 2 or more clears the two high bits. -/
theorem extractLsb'_high_ushiftRight (b : Byte) {n : Nat} (hn : 2 ≤ n) : (b >>> n).extractLsb' 6 2 = 0#2 := by
  ext i hi
  rw [BitVec.getElem_extractLsb', BitVec.getLsbD_ushiftRight, BitVec.getLsbD_of_ge _ _ (by omega),
    BitVec.getElem_zero]

theorem extractLsb'_high_low_two_bits (b : Byte) : ((b &&& 0b11#8) <<< 4).extractLsb' 6 2 = 0#2 := by
  revert b; decide

theorem extractLsb'_high_low_four_bits (b : Byte) : ((b &&& 0b1111#8) <<< 2).extractLsb' 6 2 = 0#2 := by
  revert b; decide

theorem extractLsb'_high_low_six_bits (b : Byte) : (b &&& 0b111111#8).extractLsb' 6 2 = 0#2 := by
  revert b; decide

/-- Every slot of `XLAT` fits: each of its values is made of pieces whose two high bits are clear (R93). -/
theorem xlat_fitsSixBits (t : Triplet) :
    (xlat t).1.FitsSixBits ∧ (xlat t).2.1.FitsSixBits ∧ (xlat t).2.2.1.FitsSixBits ∧
      (xlat t).2.2.2.FitsSixBits := by
  refine ⟨Slot.fitsSixBits_val (extractLsb'_high_ushiftRight _ (by decide)), Slot.fitsSixBits_val ?_, ?_, ?_⟩
  · rw [BitVec.extractLsb'_or, extractLsb'_high_low_two_bits]
    split
    · rfl
    · rw [extractLsb'_high_ushiftRight _ (by decide)]; rfl
  · simp only [xlat]
    split
    · exact Slot.fitsSixBits_absent
    · apply Slot.fitsSixBits_val
      rw [BitVec.extractLsb'_or, extractLsb'_high_low_four_bits]
      split
      · rw [extractLsb'_high_ushiftRight _ (by decide)]; rfl
      · rfl
  · simp only [xlat]
    split
    · exact Slot.fitsSixBits_val (extractLsb'_high_low_six_bits _)
    · exact Slot.fitsSixBits_absent

/-- `TRANSLATE` never raises: it gives four output words. -/
theorem translateTriplet_ok (t : Triplet) (idx : Nat) :
    ∃ out, translateTriplet t idx = .ok out ∧ EmissionWithin 4 out := by
  obtain ⟨fits0, fits1, fits2, fits3⟩ := xlat_fitsSixBits t
  obtain ⟨y0, h0⟩ := sym_of_fitsSixBits fits0 idx
  obtain ⟨y1, h1⟩ := sym_of_fitsSixBits fits1 idx
  obtain ⟨y2, h2⟩ := sym_of_fitsSixBits fits2 idx
  obtain ⟨y3, h3⟩ := sym_of_fitsSixBits fits3 idx
  refine ⟨[symw y0, symw y1, symw y2, symw y3], ?_, by simp, ?_⟩
  · simp only [translateTriplet, encode4, h0, h1, h2, h3]; rfl
  · simp only [List.forall_mem_cons, List.not_mem_nil, false_implies, implies_true, and_true]
    exact ⟨isOutputWord_of_sym h0, isOutputWord_of_sym h1, isOutputWord_of_sym h2, isOutputWord_of_sym h3⟩

/-! ### The composition with `GROUP` and `FLUSH` -/

/-- A byte is stored as the first, stored as the second, or completes a triplet. -/
theorem deliverByte_cases (byte : Byte) {r : Regs} (hcnt : r.cnt ≠ 3#2) :
    (r.cnt = 0#2 ∧ deliverByte byte r = .ok ({ r with b0 := byte, cnt := 1#2 }, [])) ∨
    (r.cnt = 1#2 ∧ deliverByte byte r = .ok ({ r with b1 := byte, cnt := 2#2 }, [])) ∨
    (r.cnt = 2#2 ∧ ∃ out, deliverByte byte r = .ok (r.clearGroup, out) ∧ EmissionWithin 4 out) := by
  rcases group_cases byte r with ⟨h, hg⟩ | ⟨h, hg⟩ | ⟨h, hg⟩ | ⟨h, -⟩
  · exact .inl ⟨h, deliverByte_of_stored hg⟩
  · exact .inr (.inl ⟨h, deliverByte_of_stored hg⟩)
  · obtain ⟨out, ht, hout⟩ := translateTriplet_ok { n := .three, b0 := r.b0, b1 := r.b1, b2 := byte } r.idx
    exact .inr (.inr ⟨h, out, deliverByte_of_issued hg ht, hout⟩)
  · exact absurd h hcnt

theorem drainGroup_of_cnt_zero {r : Regs} (h : r.cnt = 0#2) : drainGroup r = .ok (r, []) :=
  drainGroup_of_empty (by simp [flush, h])

/-- Bytes pending in GROUPER leave it as a short triplet. -/
theorem drainGroup_of_pending {r : Regs} (h0 : r.cnt ≠ 0#2) (h3 : r.cnt ≠ 3#2) :
    ∃ out, drainGroup r = .ok (r.clearGroup, out) ∧ EmissionWithin 4 out := by
  rcases flush_cases r with ⟨h, -⟩ | ⟨-, hf⟩ | ⟨-, hf⟩ | ⟨h, -⟩
  · exact absurd h h0
  · obtain ⟨out, ht, hout⟩ := translateTriplet_ok _ r.clearGroup.idx
    exact ⟨out, drainGroup_of_issued hf ht, hout⟩
  · obtain ⟨out, ht, hout⟩ := translateTriplet_ok _ r.clearGroup.idx
    exact ⟨out, drainGroup_of_issued hf ht, hout⟩
  · exact absurd h h3

/-- A last byte and the drain after it empty GROUPER and emit one triplet between them. -/
theorem deliverByte_then_drainGroup (byte : Byte) {r : Regs} (hcnt : r.cnt ≠ 3#2) :
    ∃ r1 out1 out2, deliverByte byte r = .ok (r1, out1) ∧ drainGroup r1 = .ok (r.clearGroup, out2) ∧
      EmissionWithin 4 (out1 ++ out2) := by
  rcases deliverByte_cases byte hcnt with ⟨-, hd⟩ | ⟨-, hd⟩ | ⟨-, out, hd, hout⟩
  · obtain ⟨out, hf, hout⟩ := drainGroup_of_pending (r := { r with b0 := byte, cnt := 1#2 })
      (by simp) (by simp)
    exact ⟨_, [], out, hd, hf, hout⟩
  · obtain ⟨out, hf, hout⟩ := drainGroup_of_pending (r := { r with b1 := byte, cnt := 2#2 })
      (by simp) (by simp)
    exact ⟨_, [], out, hd, hf, hout⟩
  · exact ⟨_, out, [], hd, drainGroup_of_cnt_zero rfl, by rwa [List.append_nil]⟩

/-- A legal character is held as a high nibble, or completes a byte that GROUPER stores or issues. -/
theorem acceptNibble_cases (p : Params) (nib : Nibble) {r : Regs} (hcnt : r.cnt ≠ 3#2) :
    (r.nibf = false ∧
      acceptNibble p nib r = .ok (({ r with hi := nib, nibf := true } : Regs).countChar p, [])) ∨
    (r.nibf = true ∧ r.cnt = 0#2 ∧ acceptNibble p nib r = .ok
      (({ r with hi := 0#4, nibf := false, b0 := byteOf r.hi nib, cnt := 1#2 } : Regs).countChar p, [])) ∨
    (r.nibf = true ∧ r.cnt = 1#2 ∧ acceptNibble p nib r = .ok
      (({ r with hi := 0#4, nibf := false, b1 := byteOf r.hi nib, cnt := 2#2 } : Regs).countChar p, [])) ∨
    (r.nibf = true ∧ r.cnt = 2#2 ∧ ∃ out, acceptNibble p nib r = .ok
      (({ r with hi := 0#4, nibf := false } : Regs).clearGroup.countChar p, out) ∧ EmissionWithin 4 out) := by
  cases hn : r.nibf with
  | false => exact .inl ⟨rfl, acceptNibble_of_free hn nib⟩
  | true =>
    rcases deliverByte_cases (byteOf r.hi nib) (r := { r with hi := 0#4, nibf := false }) hcnt with
      ⟨h, hd⟩ | ⟨h, hd⟩ | ⟨h, out, hd, hout⟩
    · exact .inr (.inl ⟨rfl, h, acceptNibble_of_pending hn hd⟩)
    · exact .inr (.inr (.inl ⟨rfl, h, acceptNibble_of_pending hn hd⟩))
    · exact .inr (.inr (.inr ⟨rfl, h, out, acceptNibble_of_pending hn hd, hout⟩))

end Sys2Proof.Machine
end

section
/-! PROOFS. What an input word runs: the operation map (R59) and the value of a character (R70, R111 to R115). -/

namespace Sys2Proof.Machine

open Sys2Proof Sys2Proof.Reference

theorem digitValue_of_dec {c : Byte} (h : inRange 0x30 0x39 c = true) : digitValue c = some (nibbleOfDec c) := by
  revert c; decide

theorem digitValue_of_upper {c : Byte} (h : inRange 0x41 0x46 c = true) :
    digitValue c = some (nibbleOfLetter c) := by
  revert c; decide

theorem digitValue_of_lower {c : Byte} (h : inRange 0x61 0x66 c = true) :
    digitValue c = some (nibbleOfLetter c) := by
  revert c; decide

theorem digitValue_of_other {c : Byte} (hd : inRange 0x30 0x39 c = false) (hu : inRange 0x41 0x46 c = false)
    (hl : inRange 0x61 0x66 c = false) : digitValue c = none := by
  revert c; decide

theorem hexval_eq_digitValue (c : Byte) : hexval c = digitValue c := by
  revert c; decide

@[simp] theorem wordTag_mkWord (tag : Bool) (low : Byte) : wordTag (mkWord tag low) = tag := by
  revert tag low; decide

@[simp] theorem wordLow_mkWord (tag : Bool) (low : Byte) : wordLow (mkWord tag low) = low := by
  revert tag low; decide

/-- An input word is a hex digit, whose value is accepted, or another character, or an `END`. -/
theorem decodeIn_cases (w : InWord) :
    (∃ nib, digitValue (wordLow w) = some nib ∧ wordTag w = false ∧
      ∀ p s, execWith p (decodeIn w) s = s.whenRunning (acceptNibble p nib s.regs)) ∨
    (digitValue (wordLow w) = none ∧ wordTag w = false ∧ decodeIn w = .pushIll (wordLow w)) ∨
    (wordTag w = true ∧ decodeIn w = .endStream (wordLow w)) := by
  unfold decodeIn
  cases htag : wordTag w with
  | true => exact .inr (.inr ⟨rfl, rfl⟩)
  | false =>
    cases hd : inRange 0x30 0x39 (wordLow w) with
    | true => exact .inl ⟨_, digitValue_of_dec hd, rfl, fun _ _ => rfl⟩
    | false =>
      cases hu : inRange 0x41 0x46 (wordLow w) with
      | true => exact .inl ⟨_, digitValue_of_upper hu, rfl, fun _ _ => rfl⟩
      | false =>
        cases hl : inRange 0x61 0x66 (wordLow w) with
        | true => exact .inl ⟨_, digitValue_of_lower hl, rfl, fun _ _ => rfl⟩
        | false => exact .inr (.inl ⟨digitValue_of_other hd hu hl, rfl, rfl⟩)

/-- A `PUSH` of a hex digit accepts its value. -/
theorem execWith_push {c : Byte} {nib : Nibble} (h : digitValue c = some nib) (p : Params) (s : State) :
    execWith p (decodeIn (mkWord false c)) s = s.whenRunning (acceptNibble p nib s.regs) := by
  rcases decodeIn_cases (mkWord false c) with ⟨nib', hn, -, hexec⟩ | ⟨hn, -⟩ | ⟨ht, -⟩
  · rw [wordLow_mkWord, h] at hn
    cases hn
    exact hexec p s
  · rw [wordLow_mkWord, h] at hn
    cases hn
  · rw [wordTag_mkWord] at ht
    cases ht

/-- At the transaction level a `PUSH` of a hex digit gives the registers and the emission of its acceptance. -/
theorem txStep_push {c : Byte} {nib : Nibble} {p : Params} {r r' : Regs} {out : List OutWord}
    (h : digitValue c = some nib) (hrun : r.errCode = .noError) (ha : acceptNibble p nib r = .ok (r', out)) :
    txStep p r (mkWord false c) = some (r', out) := by
  have hexec : execWith p (decodeIn (mkWord false c)) (State.ofRegs r)
      = .next ((State.ofRegs r).complete r' out) := by
    rw [execWith_push h, whenRunning_of_running (s := State.ofRegs r) hrun]
    show (State.ofRegs r).settle (acceptNibble p nib r) = _
    rw [ha]; rfl
  rw [txStep, hexec]; rfl

end Sys2Proof.Machine
end

section
/-! PROOFS. The invariants of R22: the reset state has them, and each of the three things an edge can do keeps them. -/

namespace Sys2Proof.Machine

open Sys2Proof Sys2Proof.Reference

/-! ### The registers -/

/-- While no error is recorded the record is zero, and no more is asked of it. -/
theorem recordAgrees_iff_of_running {p : Params} {r : Regs} (h : r.errCode = .noError) :
    r.RecordAgrees p ↔ r.errChar = 0#8 ∧ r.errIndex = 0 := by
  simp [Regs.RecordAgrees, h]

theorem regs_reset_inv (p : Params) : Regs.reset.Inv p := by
  refine ⟨by decide, by decide, ⟨Nat.two_pow_pos _, rfl⟩, ?_⟩
  exact (recordAgrees_iff_of_running rfl).mpr ⟨rfl, rfl⟩

/-- What an operation computes from registers `r` keeps the invariants: it completes with registers that have them and
an emission of output words for which `in_ready` keeps room, or its raise leaves a record that has them. -/
def Effect.KeepsInv (p : Params) (r : Regs) (e : Effect) : Prop :=
  (∃ r' out, e = .ok (r', out) ∧ r'.Inv p ∧ EmissionWithin maxEmission out) ∨
  (∃ k c n, e = .error (.raised k c n) ∧
    ({ r with errCode := k, errChar := c, errIndex := n } : Regs).Inv p)

section
variable {p : Params} {r : Regs}

/-- Counting a character keeps `IDX` in its width and flips its parity, `2^IDX_W` being even. -/
theorem countChar_indexAgrees (hw : 1 ≤ p.idxW) (h : (r.idx + 1) % 2 = r.nibf.toNat) :
    (r.countChar p).IndexAgrees p := by
  refine ⟨Nat.mod_lt _ (Nat.two_pow_pos _), ?_⟩
  rw [countChar_idx, Nat.mod_mod_of_dvd _ (dvd_pow_self 2 (by omega)), h, countChar_nibf]

theorem countChar_inv (hw : 1 ≤ p.idxW) (hcnt : r.cnt ≠ 3#2) (hcanon : r.Canonical)
    (hparity : (r.idx + 1) % 2 = r.nibf.toNat) (hrun : r.errCode = .noError)
    (hzero : r.errChar = 0#8 ∧ r.errIndex = 0) : (r.countChar p).Inv p :=
  ⟨hcnt, hcanon, countChar_indexAgrees hw hparity, (recordAgrees_iff_of_running (r := r.countChar p) hrun).mpr hzero⟩

/-- A legal character (R111 to R113): each of the four register updates is canonical, and `NIBF` flips with `IDX`. -/
theorem acceptNibble_keepsInv (hw : 1 ≤ p.idxW) (hinv : r.Inv p) (hrun : r.errCode = .noError) (nib : Nibble) :
    Effect.KeepsInv p r (acceptNibble p nib r) := by
  obtain ⟨hcnt, ⟨-, hzero, hone⟩, ⟨-, hparity⟩, hrec⟩ := hinv
  have hrec := (recordAgrees_iff_of_running hrun).mp hrec
  have flips : (r.idx + 1) % 2 = (!r.nibf).toNat := by
    cases hn : r.nibf <;> simp [hn] at hparity ⊢ <;> omega
  rcases acceptNibble_cases p nib hcnt with
    ⟨hn, ha⟩ | ⟨hn, h0, ha⟩ | ⟨hn, -, ha⟩ | ⟨hn, -, out, ha, hout⟩ <;> rw [hn] at flips
  · exact .inl ⟨_, _, ha, countChar_inv hw hcnt ⟨nofun, hzero, hone⟩ flips hrun hrec, emissionWithin_nil _⟩
  · exact .inl ⟨_, _, ha, countChar_inv hw (by simp) ⟨fun _ => rfl, nofun, fun _ => (hzero h0).2⟩ flips hrun hrec,
      emissionWithin_nil _⟩
  · exact .inl ⟨_, _, ha, countChar_inv hw (by simp) ⟨fun _ => rfl, nofun, nofun⟩ flips hrun hrec,
      emissionWithin_nil _⟩
  · exact .inl ⟨_, _, ha, countChar_inv hw (by simp) ⟨fun _ => rfl, fun _ => ⟨rfl, rfl⟩, nofun⟩ flips hrun hrec,
      hout.mono (by decide)⟩

/-- An illegal character (R114): the record holds it and the `IDX` before it. -/
theorem raise_invalidHexDigit_keepsInv {c : Byte} (hinv : r.Inv p) (hc : digitValue c = none) :
    Effect.KeepsInv p r (.error (.raised .invalidHexDigit c r.idx)) := by
  obtain ⟨hcnt, hcanon, hindex, -⟩ := hinv
  refine .inr ⟨_, _, _, rfl, hcnt, hcanon, hindex, nofun, fun _ => rfl, fun _ => ?_, nofun, nofun⟩
  exact (hexval_eq_digitValue c).trans hc

/-- Registers that are drained and hold no nibble are those of reset, but for `IDX`. -/
theorem drained_eq_reset (hhi : r.hi = 0#4) (hn : r.nibf = false) (hrun : r.errCode = .noError)
    (hzero : r.errChar = 0#8 ∧ r.errIndex = 0) : { r.clearGroup with idx := 0 } = Regs.reset := by
  obtain ⟨hchar, hindex⟩ := hzero
  simp [Regs.clearGroup, Regs.reset, hhi, hn, hrun, hchar, hindex]

theorem clearGroup_of_empty (h0 : r.cnt = 0#2) (hb0 : r.b0 = 0#8) (hb1 : r.b1 = 0#8) : r.clearGroup = r := by
  cases r; cases h0; cases hb0; cases hb1; rfl

/-- FLUSH empties GROUPER, be it empty already or not. -/
theorem drainGroup_ok (hcnt : r.cnt ≠ 3#2) (hcanon : r.Canonical) :
    ∃ out, drainGroup r = .ok (r.clearGroup, out) ∧ EmissionWithin 4 out := by
  by_cases h0 : r.cnt = 0#2
  · obtain ⟨hb0, hb1⟩ := hcanon.2.1 h0
    exact ⟨[], by rw [drainGroup_of_cnt_zero h0, clearGroup_of_empty h0 hb0 hb1], emissionWithin_nil _⟩
  · exact drainGroup_of_pending h0 hcnt

/-- `END` drains and returns to the registers of reset, or raises for the pending nibble (R115). -/
theorem finishStream_cases (hinv : r.Inv p) (hrun : r.errCode = .noError) :
    (∃ out, finishStream p r = .ok (Regs.reset, out) ∧ EmissionWithin maxEmission out) ∨
    (r.nibf = true ∧ p.oddPolicy = .error ∧ finishStream p r = .error (.raised .oddHexLength 0#8 r.idx)) := by
  obtain ⟨hcnt, hcanon, -, hrec⟩ := hinv
  have hrec := (recordAgrees_iff_of_running hrun).mp hrec
  cases hn : r.nibf with
  | false =>
    obtain ⟨out, hd, hout⟩ := drainGroup_ok hcnt hcanon
    refine .inl ⟨out ++ [endw], ?_, hout.append emissionWithin_endw⟩
    rw [finishStream_of_even hn hd, drained_eq_reset (hcanon.1 hn) hn hrun hrec]
  | true =>
    cases hpol : p.oddPolicy with
    | error => exact .inr ⟨rfl, rfl, finishStream_of_odd_error hn hpol⟩
    | zeroPad =>
      obtain ⟨r1, out1, out2, h1, h2, hout⟩ :=
        deliverByte_then_drainGroup (byteOf r.hi 0#4) (r := { r with hi := 0#4, nibf := false }) hcnt
      refine .inl ⟨out1 ++ out2 ++ [endw], ?_, hout.append emissionWithin_endw⟩
      rw [finishStream_of_padded hn hpol h1 h2,
        drained_eq_reset (r := { r with hi := 0#4, nibf := false }) rfl rfl hrun hrec]

theorem finishStream_keepsInv (hinv : r.Inv p) (hrun : r.errCode = .noError) :
    Effect.KeepsInv p r (finishStream p r) := by
  rcases finishStream_cases hinv hrun with ⟨out, he, hout⟩ | ⟨hn, hpol, he⟩
  · exact .inl ⟨_, out, he, regs_reset_inv p, hout⟩
  · obtain ⟨hcnt, hcanon, hindex, -⟩ := hinv
    exact .inr ⟨_, _, _, he, hcnt, hcanon, hindex, nofun, fun _ => rfl, nofun, nofun, fun _ => ⟨rfl, hn, hpol⟩⟩

end

/-! ### The state -/

section
variable {p : Params} {s t : State}

theorem state_reset_inv (hp : p.Legal) : State.reset.Inv p :=
  ⟨hp, regs_reset_inv p, Nat.zero_le _, nofun⟩

/-- The transfers of an edge add no word to the queue. -/
theorem transfers_oq_sublist (p : Params) (s : State) : (s.transfers p).oq.Sublist s.oq := by
  rw [transfers_oq]
  split
  · exact List.tail_sublist _
  · exact List.Sublist.refl _

theorem transfers_inv (h : s.Inv p) : (s.transfers p).Inv p := by
  obtain ⟨hp, hregs, hlen, hwords⟩ := h
  have sub := transfers_oq_sublist p s
  exact ⟨hp, by rwa [transfers_regs], sub.length_le.trans hlen, fun w hw => hwords w (sub.mem hw)⟩

theorem execRst_inv (hp : p.Legal) (h : execRst s = .next t) : t.Inv p := by
  cases h
  exact ⟨hp, regs_reset_inv p, Nat.zero_le _, nofun⟩

/-- An effect that keeps the invariants keeps those of a state whose queue has room for it. -/
theorem whenRunning_inv {e : Effect} (hs : s.Inv p) (hroom : s.oq.length + maxEmission ≤ p.oqDepth)
    (he : Effect.KeepsInv p s.regs e) (h : s.whenRunning e = .next t) : t.Inv p := by
  obtain ⟨hp, -, hlen, hwords⟩ := hs
  obtain ⟨-, ⟨r, out, hok, rfl⟩ | ⟨k, c, n, herr, rfl⟩⟩ := whenRunning_cases h
  · rcases he with ⟨r', out', he, hr, hlen', hwords'⟩ | ⟨_, _, _, he, -⟩ <;> rw [hok] at he <;> cases he
    refine ⟨hp, hr, ?_, fun w hw => ?_⟩
    · rw [complete_oq, List.length_append]; omega
    · exact (List.mem_append.mp hw).elim (hwords w) (hwords' w)
  · rcases he with ⟨_, _, he, -⟩ | ⟨_, _, _, he, hr⟩ <;> rw [herr] at he <;> cases he
    exact ⟨hp, hr, hlen, hwords⟩

/-- The operation of an input word keeps the invariants of a running state with room in its queue. -/
theorem execWith_decodeIn_inv {w : InWord} (hs : s.Inv p) (hrun : s.regs.errCode = .noError)
    (hroom : s.oq.length + maxEmission ≤ p.oqDepth) (h : execWith p (decodeIn w) s = .next t) : t.Inv p := by
  have ⟨⟨hw, _⟩, hregs, _⟩ := hs
  rcases decodeIn_cases w with ⟨nib, -, -, hexec⟩ | ⟨hc, -, hdec⟩ | ⟨-, hdec⟩
  · exact whenRunning_inv hs hroom (acceptNibble_keepsInv hw hregs hrun nib) (hexec p s ▸ h)
  · rw [hdec] at h
    exact whenRunning_inv hs hroom (raise_invalidHexDigit_keepsInv hregs hc) h
  · rw [hdec] at h
    exact whenRunning_inv hs hroom (finishStream_keepsInv hregs hrun) h

/-- A clock edge at any parameters keeps the invariants, in each of its three shapes. -/
theorem stepWith_inv (hs : s.Inv p) (h : stepWith p s = .next t) : t.Inv p := by
  rcases stepWith_cases p s with ⟨-, he⟩ | ⟨-, htaken, he⟩ | ⟨-, -, he⟩ <;> rw [he] at h
  · exact execRst_inv hs.1 h
  · obtain ⟨-, hrun, hroom⟩ := inTransfer_ready htaken
    refine execWith_decodeIn_inv (transfers_inv hs) (by rwa [transfers_regs]) ?_ h
    exact (Nat.add_le_add_right (transfers_oq_sublist p s).length_le _).trans hroom
  · cases h
    exact transfers_inv hs

end

/-- Settles O31: the edge at the defaults is `stepWith` at the defaults. -/
theorem stepKeepsTheInvariants : Obligations.StepKeepsTheInvariants := by
  unfold Obligations.StepKeepsTheInvariants
  exact ⟨fun s t hs h => stepWith_inv hs (step_eq_stepWith_default s ▸ h), fun p s t => stepWith_inv⟩

/-- Settles O30: the reset values are those of the definition, and the run on no word has no output. -/
theorem resetStateIsSafe : Obligations.ResetStateIsSafe := by
  unfold Obligations.ResetStateIsSafe
  exact ⟨fun p hp => state_reset_inv hp, fun p => ⟨rfl, rfl⟩, rfl, rfl⟩

end Sys2Proof.Machine
end

section
/-! PROOFS. The position in the text: `IDX`, `CNT` and `NIBF` count the legal characters (R14, R15, R22 item 6). -/

namespace Sys2Proof.Machine

open Sys2Proof Sys2Proof.Reference

/-- The registers of a running block that has accepted `n` characters of the stream. -/
def Regs.AtPosition (p : Params) (n : Nat) (r : Regs) : Prop :=
  r.errCode = .noError ∧ r.idx = n % 2 ^ p.idxW ∧ r.cnt.toNat = n / 2 % 3 ∧ r.nibf.toNat = n % 2

theorem regs_reset_atPosition (p : Params) : Regs.reset.AtPosition p 0 :=
  ⟨rfl, (Nat.zero_mod _).symm, rfl, rfl⟩

/-- A legal character is accepted and moves the position on by one. -/
theorem acceptNibble_atPosition {p : Params} {n : Nat} {r : Regs} (h : r.AtPosition p n) (nib : Nibble) :
    ∃ r' out, acceptNibble p nib r = .ok (r', out) ∧ r'.AtPosition p (n + 1) := by
  obtain ⟨hrun, hidx, hcnt, hnibf⟩ := h
  have hcnt3 : r.cnt ≠ 3#2 := by
    intro h3
    rw [h3] at hcnt
    exact absurd hcnt (by simp; omega)
  have counted : (r.idx + 1) % 2 ^ p.idxW = (n + 1) % 2 ^ p.idxW := by rw [hidx, Nat.mod_add_mod]
  rcases acceptNibble_cases p nib hcnt3 with
    ⟨hn, ha⟩ | ⟨hn, hc, ha⟩ | ⟨hn, hc, ha⟩ | ⟨hn, hc, out, ha, -⟩ <;> rw [hn] at hnibf
  · refine ⟨_, _, ha, hrun, counted, ?_, ?_⟩ <;> simp at hnibf ⊢ <;> omega
  all_goals
    rw [hc] at hcnt
    refine ⟨_, _, ha, hrun, counted, ?_, ?_⟩ <;> simp at hcnt hnibf ⊢ <;> omega

/-- By induction on the text, from any position. -/
theorem txRun_pushWords_atPosition {p : Params} (cs : List Byte) (hlegal : LegalText cs) {n : Nat} {r : Regs}
    (h : r.AtPosition p n) : (txRun p r (pushWords cs)).1.AtPosition p (n + cs.length) := by
  induction cs generalizing n r with
  | nil => exact h
  | cons c cs ih =>
    obtain ⟨hc, hcs⟩ := List.forall_mem_cons.mp hlegal
    obtain ⟨nib, hnib⟩ := Option.isSome_iff_exists.mp hc
    obtain ⟨r', out, ha, h'⟩ := acceptNibble_atPosition h nib
    have rest := ih hcs h'
    rw [Nat.add_right_comm, Nat.add_assoc] at rest
    simpa [pushWords, txRun, txStep_push hnib h.1 ha] using rest

/-- Settles O47: the reset registers are at position 0. -/
theorem positionRegistersCountTheText : Obligations.PositionRegistersCountTheText := by
  unfold Obligations.PositionRegistersCountTheText
  intro p cs hlegal
  simpa [Regs.AtPosition] using txRun_pushWords_atPosition cs hlegal (regs_reset_atPosition p)

end Sys2Proof.Machine
end

section
/-! PROOFS. What the units give in closed form: the table by its ranges (R32), the slots of XLAT as slices (R95), and so
the translation of a triplet as its Base64 group (R103). -/

namespace Sys2Proof.Machine

open Sys2Proof Sys2Proof.Reference

/-! ### `SYMROM` -/

theorem symrom_eq_symbolOf (a : SlotValue) : symrom a = symbolOf a := by
  revert a; decide

theorem padSymbol_notMem_symromRows : padSymbol ∉ symromRows := by decide

/-- Settles O7: the entries are compared with the ranges at each of the 64 addresses. -/
theorem symromIsItsRangeForm : Obligations.SymromIsItsRangeForm := by
  unfold Obligations.SymromIsItsRangeForm
  exact ⟨symrom_eq_symbolOf, rfl, padSymbol_notMem_symromRows⟩

theorem sym_zeroExtend (a : SlotValue) (idx : Nat) : sym (.val (a.zeroExtend 8)) idx = .ok (symbolOf a) := by
  have high : (a.zeroExtend 8).extractLsb' 6 2 = 0#2 := by revert a; decide
  have low : (a.zeroExtend 8).extractLsb' 0 6 = a := by revert a; decide
  simp [sym, high, low, symrom_eq_symbolOf]

/-! ### The slots of XLAT -/

theorem getElem_threeBytes (a b c : Byte) {i : Nat} (hi : i < 24) :
    (a ++ b ++ c : BitVec 24)[i] =
      if i < 8 then c.getLsbD i else if i < 16 then b.getLsbD (i - 8) else a.getLsbD (i - 16) := by
  rw [← BitVec.getLsbD_eq_getElem]
  show (a ++ b ++ c).getLsbD i = _
  simp only [BitVec.getLsbD_append]
  grind

/-- The shifts and masks of R90 cut the 24 bits of three bytes in four. -/
theorem slices_of_threeBytes (a b c : Byte) :
    a >>> 2 = ((a ++ b ++ c : BitVec 24).extractLsb' 18 6).zeroExtend 8 ∧
    ((a &&& 0b11#8) <<< 4) ||| (b >>> 4) = ((a ++ b ++ c : BitVec 24).extractLsb' 12 6).zeroExtend 8 ∧
    ((b &&& 0b1111#8) <<< 2) ||| (c >>> 6) = ((a ++ b ++ c : BitVec 24).extractLsb' 6 6).zeroExtend 8 ∧
    c &&& 0b111111#8 = ((a ++ b ++ c : BitVec 24).extractLsb' 0 6).zeroExtend 8 := by
  refine ⟨?_, ?_, ?_, ?_⟩ <;> ext i hi <;> interval_cases i <;> simp [getElem_threeBytes]

/-- The 24 bits of a triplet, a missing byte read as zero (R95). -/
def Triplet.bits (t : Triplet) : BitVec 24 :=
  t.b0 ++ (if t.n = .one then 0#8 else t.b1) ++ (if t.n = .three then t.b2 else 0#8)

theorem xlat_eq_slices (t : Triplet) :
    xlat t = (.val ((t.bits.extractLsb' 18 6).zeroExtend 8), .val ((t.bits.extractLsb' 12 6).zeroExtend 8),
      if t.n = .one then .absent else .val ((t.bits.extractLsb' 6 6).zeroExtend 8),
      if t.n = .three then .val ((t.bits.extractLsb' 0 6).zeroExtend 8) else .absent) := by
  obtain ⟨n, b0, b1, b2⟩ := t
  cases n with
  | one =>
    obtain ⟨slot0, slot1, -, -⟩ := slices_of_threeBytes b0 0#8 0#8
    simp [xlat, Triplet.bits, ← slot0, ← slot1]
  | two =>
    obtain ⟨slot0, slot1, slot2, -⟩ := slices_of_threeBytes b0 b1 0#8
    simp [xlat, Triplet.bits, ← slot0, ← slot1, ← slot2]
  | three =>
    obtain ⟨slot0, slot1, slot2, slot3⟩ := slices_of_threeBytes b0 b1 b2
    simp [xlat, Triplet.bits, ← slot0, ← slot1, ← slot2, ← slot3]

/-! ### The translation of a triplet -/

theorem encode4_of_sym {slots : Slot × Slot × Slot × Slot} {idx : Nat} {y0 y1 y2 y3 : Byte}
    (h0 : sym slots.1 idx = .ok y0) (h1 : sym slots.2.1 idx = .ok y1) (h2 : sym slots.2.2.1 idx = .ok y2)
    (h3 : sym slots.2.2.2 idx = .ok y3) : encode4 slots idx = .ok [symw y0, symw y1, symw y2, symw y3] := by
  rw [encode4, h0, h1, h2, h3]; rfl

/-- Each slot's symbol is that of its slice, and an absent slot's is the pad: the definition of the group. -/
theorem translateTriplet_eq_base64Group (t : Triplet) (idx : Nat) :
    translateTriplet t idx = .ok (base64Group ([t.b0, t.b1, t.b2].take t.n.count)) := by
  rw [translateTriplet, xlat_eq_slices]
  obtain ⟨n, b0, b1, b2⟩ := t
  cases n with
  | one => exact encode4_of_sym (sym_zeroExtend _ _) (sym_zeroExtend _ _) rfl rfl
  | two => exact encode4_of_sym (sym_zeroExtend _ _) (sym_zeroExtend _ _) (sym_zeroExtend _ _) rfl
  | three => exact encode4_of_sym (sym_zeroExtend _ _) (sym_zeroExtend _ _) (sym_zeroExtend _ _) (sym_zeroExtend _ _)

end Sys2Proof.Machine
end

section
/-! PROOFS. The frame outside the registers: an operation that is not `RST` appends its emission to the queue, and the
emission is short at every value of `CNT`, 3 included (R118). -/

namespace Sys2Proof.Machine

open Sys2Proof

/-! ### The units at `CNT == 3`, which no rule gives a meaning -/

section
variable {r : Regs} (h3 : r.cnt = 3#2)
include h3

theorem deliverByte_of_cnt_three (byte : Byte) : deliverByte byte r = .error .noSuchCount := by
  unfold deliverByte; rw [show group byte r = .error .noSuchCount by simp [group, h3]]; rfl

theorem drainGroup_of_cnt_three : drainGroup r = .error .noSuchCount := by
  unfold drainGroup; rw [show flush r = .error .noSuchCount by simp [flush, h3]]; rfl

theorem acceptNibble_of_cnt_three (p : Params) (hn : r.nibf = true) (nib : Nibble) :
    acceptNibble p nib r = .error .noSuchCount := by
  unfold acceptNibble; rw [pair_of_pending hn]
  show (deliverByte _ _ >>= _) = _
  rw [deliverByte_of_cnt_three (r := { r with hi := 0#4, nibf := false }) h3]; rfl

theorem finishStream_of_cnt_three (p : Params) : ∃ stop, finishStream p r = .error stop := by
  unfold finishStream
  rcases pairEnd_cases p r with ⟨-, hp⟩ | ⟨-, -, hp⟩ | ⟨-, -, hp⟩ <;> rw [hp]
  · show ∃ stop, (drainGroup r >>= _) = Except.error stop
    rw [drainGroup_of_cnt_three h3]; exact ⟨_, rfl⟩
  · show ∃ stop, (deliverByte _ _ >>= _) = Except.error stop
    rw [deliverByte_of_cnt_three (r := { r with hi := 0#4, nibf := false }) h3]; exact ⟨_, rfl⟩
  · exact ⟨_, rfl⟩

end

/-! ### Emission bounds -/

/-- An effect whose emission, if it completes, has at most `n` words. -/
def Effect.EmitsAtMost (n : Nat) (e : Effect) : Prop := ∀ r out, e = .ok (r, out) → out.length ≤ n

theorem Effect.emitsAtMost_ok {n : Nat} {out : List OutWord} (r : Regs) (h : out.length ≤ n) :
    Effect.EmitsAtMost n (.ok (r, out)) := by
  rintro _ _ ⟨⟩; exact h

theorem Effect.emitsAtMost_error (n : Nat) (stop : Stop) : Effect.EmitsAtMost n (.error stop) := nofun

theorem encodeSlot_emitsAtMost (slot : Slot) (r : Regs) : (encodeSlot slot r).EmitsAtMost maxEmission := by
  unfold encodeSlot
  rcases sym_cases slot r.idx with ⟨-, h⟩ | ⟨v, -, -, h⟩ | ⟨v, -, -, h⟩ <;> rw [h]
  · exact Effect.emitsAtMost_ok _ (by decide)
  · exact Effect.emitsAtMost_ok _ (by simp)
  · exact Effect.emitsAtMost_error _ _

theorem acceptNibble_emitsAtMost (p : Params) (nib : Nibble) (r : Regs) :
    (acceptNibble p nib r).EmitsAtMost maxEmission := by
  by_cases h3 : r.cnt = 3#2
  · cases hn : r.nibf with
    | false => rw [acceptNibble_of_free hn]; exact Effect.emitsAtMost_ok _ (Nat.zero_le _)
    | true => rw [acceptNibble_of_cnt_three h3 p hn]; exact Effect.emitsAtMost_error _ _
  · rcases acceptNibble_cases p nib h3 with
      ⟨-, ha⟩ | ⟨-, -, ha⟩ | ⟨-, -, ha⟩ | ⟨-, -, out, ha, hout⟩ <;> rw [ha]
    · exact Effect.emitsAtMost_ok _ (Nat.zero_le _)
    · exact Effect.emitsAtMost_ok _ (Nat.zero_le _)
    · exact Effect.emitsAtMost_ok _ (Nat.zero_le _)
    · exact Effect.emitsAtMost_ok _ (hout.mono (by decide)).1

theorem drainGroup_emits {r : Regs} (h3 : r.cnt ≠ 3#2) :
    ∃ r' out, drainGroup r = .ok (r', out) ∧ EmissionWithin 4 out := by
  by_cases h0 : r.cnt = 0#2
  · exact ⟨r, [], drainGroup_of_cnt_zero h0, emissionWithin_nil 4⟩
  · exact ⟨_, drainGroup_of_pending h0 h3⟩

/-- The bytes pending fill one triplet at most, and the marker follows it. -/
theorem finishStream_emitsAtMost (p : Params) (r : Regs) : (finishStream p r).EmitsAtMost maxEmission := by
  by_cases h3 : r.cnt = 3#2
  · obtain ⟨stop, hstop⟩ := finishStream_of_cnt_three h3 p
    rw [hstop]; exact Effect.emitsAtMost_error _ _
  cases hn : r.nibf with
  | false =>
    obtain ⟨r', out, hd, hout⟩ := drainGroup_emits h3
    rw [finishStream_of_even hn hd]
    exact Effect.emitsAtMost_ok _ (hout.append emissionWithin_endw).1
  | true =>
    cases hpol : p.oddPolicy with
    | error => rw [finishStream_of_odd_error hn hpol]; exact Effect.emitsAtMost_error _ _
    | zeroPad =>
      obtain ⟨r1, out1, out2, h1, h2, hout⟩ :=
        deliverByte_then_drainGroup (byteOf r.hi 0#4) (r := { r with hi := 0#4, nibf := false }) h3
      rw [finishStream_of_padded hn hpol h1 h2]
      exact Effect.emitsAtMost_ok _ (hout.append emissionWithin_endw).1

/-! ### The frame of an operation -/

/-- Every operation but `RST` is an effect on the registers, guarded by `ERR_CODE == 0`. -/
theorem execWith_eq_whenRunning (p : Params) {i : Instr} (hi : i ≠ .rst) (s : State) :
    ∃ e : Effect, execWith p i s = s.whenRunning e ∧ e.EmitsAtMost maxEmission := by
  cases i with
  | pushDec c => exact ⟨_, rfl, acceptNibble_emitsAtMost p _ _⟩
  | pushUC c => exact ⟨_, rfl, acceptNibble_emitsAtMost p _ _⟩
  | pushLC c => exact ⟨_, rfl, acceptNibble_emitsAtMost p _ _⟩
  | pushIll c => exact ⟨_, rfl, Effect.emitsAtMost_error _ _⟩
  | endStream ignored => exact ⟨_, rfl, finishStream_emitsAtMost p _⟩
  | rst => exact absurd rfl hi
  | symV v => exact ⟨_, rfl, encodeSlot_emitsAtMost _ _⟩
  | symPad ignored => exact ⟨_, rfl, encodeSlot_emitsAtMost _ _⟩
  | symIll v => exact ⟨_, rfl, encodeSlot_emitsAtMost _ _⟩

/-- A guarded effect leaves the host's side alone, and appends to the queue at most what it may emit. -/
theorem whenRunning_frame {n : Nat} {s t : State} {e : Effect} (he : e.EmitsAtMost n)
    (h : s.whenRunning e = .next t) : t.bench = s.bench ∧ ∃ out, t.oq = s.oq ++ out ∧ out.length ≤ n := by
  obtain ⟨-, ⟨r, out, hok, rfl⟩ | ⟨k, c, n, -, rfl⟩⟩ := whenRunning_cases h
  · exact ⟨rfl, out, rfl, he r out hok⟩
  · exact ⟨rfl, [], by simp, Nat.zero_le _⟩

/-- Settles O25: `RST` keeps the pins to come, and every other operation is a guarded effect. -/
theorem operationsOnlyAppendToTheQueue : Obligations.OperationsOnlyAppendToTheQueue := by
  unfold Obligations.OperationsOnlyAppendToTheQueue
  intro p i s t h
  by_cases hi : i = .rst
  · subst hi
    cases h
    exact ⟨rfl, fun hne => absurd rfl hne⟩
  · obtain ⟨e, hexec, he⟩ := execWith_eq_whenRunning p hi s
    obtain ⟨hbench, hqueue⟩ := whenRunning_frame he (hexec ▸ h)
    exact ⟨by rw [hbench], fun _ => ⟨hbench, hqueue⟩⟩

end Sys2Proof.Machine
end

section
/-! PROOFS. The output of a legal text, character by character: what has been emitted is the Base64 of the triplets that
are complete, and the rest waits in the registers (R42, R120). -/

namespace Sys2Proof.Machine

open Sys2Proof Sys2Proof.Reference

/-! ### What is complete of a text -/

/-- The bytes whose two nibbles have come. -/
def completeBytes : List Nibble → List Byte
  | hi :: lo :: rest => byteOf hi lo :: completeBytes rest
  | [_] => []
  | [] => []

/-- The output words of the triplets whose three bytes have come. -/
def completeGroups : List Byte → List OutWord
  | a :: b :: c :: rest => base64Group [a, b, c] ++ completeGroups rest
  | [_, _] => []
  | [_] => []
  | [] => []

theorem completeBytes_eq_take (ns : List Nibble) : completeBytes ns = (bytesOf ns).take (ns.length / 2) := by
  induction ns using completeBytes.induct with
  | case1 hi lo rest ih =>
    have split : (rest.length + 1 + 1) / 2 = rest.length / 2 + 1 := by omega
    simp [completeBytes, bytesOf, ih, split]
  | case2 hi => simp [completeBytes]
  | case3 => rfl

theorem length_bytesOf (ns : List Nibble) : (bytesOf ns).length = (ns.length + 1) / 2 := by
  induction ns using bytesOf.induct with
  | case1 hi lo rest ih => simp [bytesOf, ih]; omega
  | case2 hi => simp [bytesOf]
  | case3 => rfl

theorem completeGroups_eq_base64Text (bs : List Byte) :
    completeGroups bs = base64Text (bs.take (3 * (bs.length / 3))) := by
  induction bs using completeGroups.induct with
  | case1 a b c rest ih =>
    have split : 3 * ((rest.length + 1 + 1 + 1) / 3) = 3 * (rest.length / 3) + 3 := by omega
    simp [completeGroups, base64Text, ih, split]
  | case2 a b => simp [completeGroups, base64Text, base64Group]
  | case3 a => simp [completeGroups, base64Text, base64Group]
  | case4 => rfl

theorem length_completeGroups (bs : List Byte) : (completeGroups bs).length = 4 * (bs.length / 3) := by
  induction bs using completeGroups.induct with
  | case1 a b c rest ih => simp [completeGroups, base64Group, ih]; omega
  | case2 a b => simp [completeGroups]
  | case3 a => simp [completeGroups]
  | case4 => rfl

/-! ### What waits in the registers -/

/-- The bytes held by GROUPER, oldest first (R12, R14). -/
def Regs.heldBytes (r : Regs) : List Byte := [r.b0, r.b1].take r.cnt.toNat

/-- The nibble held by HEXDEC, if it holds one (R11, R14). -/
def Regs.heldNibble (r : Regs) : List Nibble := if r.nibf then [r.hi] else []

/-- What registers `r` will have emitted once the nibbles `ns` have come: what they hold comes first. -/
def Regs.outputOn (r : Regs) (ns : List Nibble) : List OutWord :=
  completeGroups (r.heldBytes ++ completeBytes (r.heldNibble ++ ns))

/-- One nibble is no byte, and two bytes are no triplet. -/
theorem outputOn_nil (r : Regs) : r.outputOn [] = [] := by
  have one_nibble : completeBytes r.heldNibble = [] := by
    unfold Regs.heldNibble; split <;> rfl
  have short : r.heldBytes.length < 3 := by simp [Regs.heldBytes]
  rw [Regs.outputOn, List.append_nil, one_nibble, List.append_nil, List.eq_nil_iff_length_eq_zero,
    length_completeGroups]
  omega

theorem outputOn_reset (ns : List Nibble) : Regs.reset.outputOn ns = completeGroups (completeBytes ns) := rfl

/-- The nibble that completes a third byte issues its group. -/
theorem acceptNibble_of_full {r : Regs} (p : Params) (hn : r.nibf = true) (hc : r.cnt = 2#2) (nib : Nibble) :
    acceptNibble p nib r = .ok (({ r with hi := 0#4, nibf := false } : Regs).clearGroup.countChar p,
      base64Group [r.b0, r.b1, byteOf r.hi nib]) := by
  refine acceptNibble_of_pending hn (deliverByte_of_issued (t := ⟨.three, r.b0, r.b1, byteOf r.hi nib⟩) ?_ ?_)
  · simp [group, hc]
  · exact translateTriplet_eq_base64Group _ _

/-- Accepting a nibble keeps the output owed: it moves from the nibbles to come into the registers and the emission. -/
theorem acceptNibble_outputOn (p : Params) {nib : Nibble} {r r' : Regs} {out : List OutWord} (hcnt : r.cnt ≠ 3#2)
    (ha : acceptNibble p nib r = .ok (r', out)) (ns : List Nibble) :
    r.outputOn (nib :: ns) = out ++ r'.outputOn ns := by
  rcases acceptNibble_cases p nib hcnt with ⟨hn, he⟩ | ⟨hn, hc, he⟩ | ⟨hn, hc, he⟩ | ⟨hn, hc, -⟩
  · cases ha.symm.trans he
    simp [Regs.outputOn, Regs.heldNibble, Regs.heldBytes, hn]
  · cases ha.symm.trans he
    simp [Regs.outputOn, Regs.heldNibble, Regs.heldBytes, completeBytes, hn, hc]
  · cases ha.symm.trans he
    simp [Regs.outputOn, Regs.heldNibble, Regs.heldBytes, completeBytes, hn, hc]
  · cases ha.symm.trans (acceptNibble_of_full p hn hc nib)
    simp [Regs.outputOn, Regs.heldNibble, Regs.heldBytes, completeBytes, completeGroups, hn, hc]

/-! ### The run on a text -/

theorem Regs.AtPosition.cnt_ne_three {p : Params} {n : Nat} {r : Regs} (h : r.AtPosition p n) : r.cnt ≠ 3#2 := by
  obtain ⟨-, -, hcnt, -⟩ := h
  intro h3
  rw [h3] at hcnt
  exact absurd hcnt (by simp; omega)

/-- By induction on the text, from any position: the run emits what the registers and the text complete. -/
theorem txRun_pushWords_output {p : Params} (cs : List Byte) (hlegal : LegalText cs) {n : Nat} {r : Regs}
    (h : r.AtPosition p n) : (txRun p r (pushWords cs)).2 = r.outputOn (cs.filterMap digitValue) := by
  induction cs generalizing n r with
  | nil => exact (outputOn_nil r).symm
  | cons c cs ih =>
    obtain ⟨hc, hcs⟩ := List.forall_mem_cons.mp hlegal
    obtain ⟨nib, hnib⟩ := Option.isSome_iff_exists.mp hc
    obtain ⟨r', out, ha, h'⟩ := acceptNibble_atPosition h nib
    rw [List.filterMap_cons_some hnib, acceptNibble_outputOn p h.cnt_ne_three ha, ← ih hcs h']
    simp [pushWords, txRun, txStep_push hnib h.1 ha]

theorem length_filterMap_digitValue {cs : List Byte} (hlegal : LegalText cs) :
    (cs.filterMap digitValue).length = cs.length :=
  List.filterMap_length_eq_length.mpr hlegal

theorem length_textBytes {cs : List Byte} (hlegal : LegalText cs) :
    (textBytes cs).length = (cs.length + 1) / 2 := by
  rw [textBytes, length_bytesOf, length_filterMap_digitValue hlegal]

/-- A legal text has emitted the groups of the bytes it completes, and no more. -/
theorem txRun_reset_pushWords_output (p : Params) {cs : List Byte} (hlegal : LegalText cs) :
    (txRun p Regs.reset (pushWords cs)).2 = completeGroups ((textBytes cs).take (cs.length / 2)) := by
  rw [txRun_pushWords_output cs hlegal (regs_reset_atPosition p), outputOn_reset, completeBytes_eq_take,
    length_filterMap_digitValue hlegal]
  rfl

/-- Settles O46: of `6k` characters every byte is complete, and so is every triplet. -/
theorem symbolsAreEmittedWithoutReadAhead : Obligations.SymbolsAreEmittedWithoutReadAhead := by
  unfold Obligations.SymbolsAreEmittedWithoutReadAhead
  intro p cs k hlegal hlen
  have bytes : (textBytes cs).length = 3 * k := by rw [length_textBytes hlegal]; omega
  have all : (textBytes cs).take (cs.length / 2) = textBytes cs := List.take_of_length_le (by omega)
  rw [txRun_reset_pushWords_output p hlegal, all]
  constructor
  · rw [completeGroups_eq_base64Text, List.take_of_length_le (by omega)]
  · rw [length_completeGroups]; omega

end Sys2Proof.Machine
end

section
/-! PROOFS. The encoding: a word is its two fields, the classes of a character are ranges that do not meet, and so each
well-formed operation and its word determine each other (R59, R61). -/

namespace Sys2Proof

open Sys2Proof.Machine

/-! ### A word and its fields -/

theorem mkWord_of_wordTag {w : BitVec 9} {tag : Bool} (h : wordTag w = tag) : mkWord tag (wordLow w) = w := by
  subst h; revert w; decide

/-- Of two ranges one of which lies above the other, a character is in one at most. -/
theorem inRange_eq_false_of_lt {lo hi lo' hi' : Nat} {c : Byte} (h : inRange lo' hi' c = true) (apart : hi < lo') :
    inRange lo hi c = false := by
  simp only [inRange, Bool.and_eq_true, Bool.and_eq_false_iff, decide_eq_true_eq, decide_eq_false_iff_not] at h ⊢
  omega

/-! ### From an operation to its word and back -/

theorem decodeIn_mkWord_true (ignored : Byte) : decodeIn (mkWord true ignored) = .endStream ignored := by
  simp [decodeIn]

theorem decodeIn_mkWord_false (c : Byte) : decodeIn (mkWord false c) =
    if inRange 0x30 0x39 c then .pushDec c
    else if inRange 0x41 0x46 c then .pushUC c
    else if inRange 0x61 0x66 c then .pushLC c
    else .pushIll c := by
  simp [decodeIn]

theorem decodeSlot_mkWord_true (ignored : Byte) : decodeSlot (mkWord true ignored) = .symPad ignored := by
  simp [decodeSlot]

theorem decodeSlot_mkWord_false (v : Byte) :
    decodeSlot (mkWord false v) = if inRange 0 63 v then .symV v else .symIll v := by
  simp [decodeSlot]

/-- An illegal character is one outside the three ranges. -/
theorem wellFormed_pushIll_iff (c : Byte) : (Instr.pushIll c).wellFormed = true ↔
    inRange 0x30 0x39 c = false ∧ inRange 0x41 0x46 c = false ∧ inRange 0x61 0x66 c = false := by
  show (!inRange 0x30 0x39 c && !inRange 0x41 0x46 c && !inRange 0x61 0x66 c) = true ↔ _
  simp [and_assoc]

theorem wellFormed_symV_iff (v : Byte) : (Instr.symV v).wellFormed = true ↔ inRange 0 63 v = true := by
  simp [Instr.wellFormed, inRange]

theorem wellFormed_symIll_iff (v : Byte) : (Instr.symIll v).wellFormed = true ↔ inRange 0 63 v = false := by
  simp [Instr.wellFormed, inRange]

/-- Settles O1: the tests before an operation's own fail on its operand, because the ranges do not meet. -/
theorem decodeOfEncodeIsTheInstruction : Obligations.DecodeOfEncodeIsTheInstruction := by
  unfold Obligations.DecodeOfEncodeIsTheInstruction
  intro i h
  cases i with
  | pushDec c =>
    have dec : inRange 0x30 0x39 c = true := h
    simp [decode, encode, decodeIn_mkWord_false, dec]
  | pushUC c =>
    have upper : inRange 0x41 0x46 c = true := h
    have notDec : inRange 0x30 0x39 c = false := inRange_eq_false_of_lt upper (by decide)
    simp [decode, encode, decodeIn_mkWord_false, notDec, upper]
  | pushLC c =>
    have lower : inRange 0x61 0x66 c = true := h
    have notDec : inRange 0x30 0x39 c = false := inRange_eq_false_of_lt lower (by decide)
    have notUpper : inRange 0x41 0x46 c = false := inRange_eq_false_of_lt lower (by decide)
    simp [decode, encode, decodeIn_mkWord_false, notDec, notUpper, lower]
  | pushIll c =>
    obtain ⟨notDec, notUpper, notLower⟩ := (wellFormed_pushIll_iff c).mp h
    simp [decode, encode, decodeIn_mkWord_false, notDec, notUpper, notLower]
  | endStream ignored => exact congrArg Except.ok (decodeIn_mkWord_true ignored)
  | rst => rfl
  | symV v => simp [decode, encode, decodeSlot_mkWord_false, (wellFormed_symV_iff v).mp h]
  | symPad ignored => exact congrArg Except.ok (decodeSlot_mkWord_true ignored)
  | symIll v => simp [decode, encode, decodeSlot_mkWord_false, (wellFormed_symIll_iff v).mp h]

/-! ### From a word to its operation and back -/

/-- The tests an input word passed and failed are the class of the operation it selects. -/
theorem decodeIn_sound (w : InWord) : (decodeIn w).wellFormed = true ∧ encode (decodeIn w) = .inp w := by
  unfold decodeIn
  cases tag : wordTag w with
  | true => exact ⟨rfl, congrArg PortWord.inp (mkWord_of_wordTag tag)⟩
  | false =>
    have word : PortWord.inp (mkWord false (wordLow w)) = .inp w := congrArg PortWord.inp (mkWord_of_wordTag tag)
    cases dec : inRange 0x30 0x39 (wordLow w) with
    | true => exact ⟨dec, word⟩
    | false =>
      cases upper : inRange 0x41 0x46 (wordLow w) with
      | true => exact ⟨upper, word⟩
      | false =>
        cases lower : inRange 0x61 0x66 (wordLow w) with
        | true => exact ⟨lower, word⟩
        | false => exact ⟨(wellFormed_pushIll_iff _).mpr ⟨dec, upper, lower⟩, word⟩

theorem decodePin_sound {w : BitVec 1} {i : Instr} (h : decodePin w = some i) :
    i.wellFormed = true ∧ encode i = .pin w := by
  obtain ⟨rfl, rfl⟩ : w = 1#1 ∧ Instr.rst = i := by simpa [decodePin] using h
  exact ⟨rfl, rfl⟩

theorem decodeSlot_sound (w : SlotWord) : (decodeSlot w).wellFormed = true ∧ encode (decodeSlot w) = .slot w := by
  unfold decodeSlot
  cases tag : wordTag w with
  | true => exact ⟨rfl, congrArg PortWord.slot (mkWord_of_wordTag tag)⟩
  | false =>
    have word : PortWord.slot (mkWord false (wordLow w)) = .slot w :=
      congrArg PortWord.slot (mkWord_of_wordTag tag)
    cases low : inRange 0 63 (wordLow w) with
    | true => exact ⟨(wellFormed_symV_iff _).mpr low, word⟩
    | false => exact ⟨(wellFormed_symIll_iff _).mpr low, word⟩

/-- Settles O2, format by format. -/
theorem decodedInstructionHasThatWord : Obligations.DecodedInstructionHasThatWord := by
  unfold Obligations.DecodedInstructionHasThatWord
  intro w i h
  cases w with
  | inp w =>
    cases h
    exact decodeIn_sound w
  | pin w =>
    apply decodePin_sound
    cases hp : decodePin w with
    | none => simp [decode, hp] at h
    | some j => simpa [decode, hp] using h
  | slot w =>
    cases h
    exact decodeSlot_sound w

/-- Settles O5: nine of the words are those of the operations they decode to, and `rst == 0` is no operation's word. -/
theorem spelledOutWordsDecode : Obligations.SpelledOutWordsDecode := by
  unfold Obligations.SpelledOutWordsDecode
  have roundTrip := decodeOfEncodeIsTheInstruction
  exact ⟨roundTrip (.pushDec 0x34#8) (by decide), roundTrip (.pushUC 0x46#8) (by decide),
    roundTrip (.pushLC 0x61#8) (by decide), roundTrip (.pushIll 0x67#8) (by decide),
    roundTrip (.endStream 0x00#8) (by decide), roundTrip .rst (by decide), rfl,
    roundTrip (.symV 0x3F#8) (by decide), roundTrip (.symPad 0x00#8) (by decide),
    roundTrip (.symIll 0x40#8) (by decide)⟩

end Sys2Proof
end

section
/-! PROOFS. HEXDEC as a comparator tree (R60): each of its signals is one of the tests of the operation map (R59). -/

namespace Sys2Proof

open Sys2Proof.Machine

theorem cmpIsDec_eq_inRange (c : Byte) : cmpIsDec c = inRange 0x30 0x39 c := by
  revert c; decide

/-- Bit 5 is clear in the upper-case letters. -/
theorem cmpIsLetter_and_not_bit5 (c : Byte) : (cmpIsLetter c && !c.getLsbD 5) = inRange 0x41 0x46 c := by
  revert c; decide

/-- Bit 5 is set in the lower-case letters. -/
theorem cmpIsLetter_and_bit5 (c : Byte) : (cmpIsLetter c && c.getLsbD 5) = inRange 0x61 0x66 c := by
  revert c; decide

theorem cmpDecodeIn_eq_decodeIn (w : InWord) : cmpDecodeIn w = decodeIn w := by
  rw [cmpDecodeIn, cmpIsDec_eq_inRange, cmpIsLetter_and_not_bit5, cmpIsLetter_and_bit5]
  rfl

theorem cmpValid_append_cmpNib (c : Byte) : BitVec.ofBool (cmpValid c) ++ cmpNib c = hexlut c := by
  revert c; decide

/-- Settles O4: the selected operation test by test, the valid bit and the nibble entry by entry. -/
theorem comparatorTreeAgreesWithTheTable : Obligations.ComparatorTreeAgreesWithTheTable := by
  unfold Obligations.ComparatorTreeAgreesWithTheTable
  exact fun w => ⟨cmpDecodeIn_eq_decodeIn w, cmpValid_append_cmpNib (wordLow w)⟩

end Sys2Proof
end

section
/-! PROOFS. The input words in the order of their numbers (R59): they fall into blocks of one class each, and the blocks
have the sizes the spec gives. -/

namespace Sys2Proof

/-- The operation map by the number of the word, with the operand apart: below 256 the ranges of the character, from 256
on the bit `end`. -/
def operationAt (n : Nat) (operand : Byte) : Instr :=
  if 256 ≤ n then .endStream operand
  else if 0x30 ≤ n ∧ n ≤ 0x39 then .pushDec operand
  else if 0x41 ≤ n ∧ n ≤ 0x46 then .pushUC operand
  else if 0x61 ≤ n ∧ n ≤ 0x66 then .pushLC operand
  else .pushIll operand

theorem decodeIn_ofNat {n : Nat} (h : n < 512) :
    decodeIn (BitVec.ofNat 9 n) = operationAt n (BitVec.ofNat 8 n) := by
  have low : wordLow (BitVec.ofNat 9 n) = BitVec.ofNat 8 n := by
    apply BitVec.eq_of_toNat_eq; simp [wordLow]
  have tag : wordTag (BitVec.ofNat 9 n) = decide (256 ≤ n) := by
    have bit : n / 256 % 2 = 1 ↔ 256 ≤ n := by omega
    simp only [wordTag, BitVec.getLsbD_ofNat, Nat.testBit_eq_decide_div_mod_eq, Nat.reduceLT, Nat.reducePow, bit,
      decide_true, Bool.true_and]
  by_cases hend : 256 ≤ n
  · simp [decodeIn, operationAt, low, tag, hend]
  · have byte : (BitVec.ofNat 8 n).toNat = n := by rw [BitVec.toNat_ofNat]; omega
    simp [decodeIn, operationAt, inRange, low, tag, hend, byte]

/-- A test of input operations that sees the class and not the operand. -/
def SeesOnlyTheClass (f : Instr → Bool) : Prop := ∀ n operand, f (operationAt n operand) = f (operationAt n 0#8)

theorem seesOnlyTheClass_of_operands {f : Instr → Bool} (hdec : ∀ c, f (.pushDec c) = f (.pushDec 0#8))
    (hupper : ∀ c, f (.pushUC c) = f (.pushUC 0#8)) (hlower : ∀ c, f (.pushLC c) = f (.pushLC 0#8))
    (hill : ∀ c, f (.pushIll c) = f (.pushIll 0#8)) (hend : ∀ c, f (.endStream c) = f (.endStream 0#8)) :
    SeesOnlyTheClass f := by
  intro n operand
  unfold operationAt
  split_ifs
  exacts [hend _, hdec _, hupper _, hlower _, hill _]

/-- On a block of words of one class such a test holds of all or of none. -/
theorem countP_block {f : Instr → Bool} (hf : SeesOnlyTheClass f) {start len : Nat} (i : Instr)
    (hlen : start + len ≤ 512) (hi : ∀ n, start ≤ n → n < start + len → operationAt n 0#8 = i) :
    (List.range' start len).countP (fun n => f (decodeIn (BitVec.ofNat 9 n))) = len * (f i).toNat := by
  have const : ∀ n ∈ List.range' start len, f (decodeIn (BitVec.ofNat 9 n)) = f i := by
    intro n hn
    obtain ⟨low, high⟩ := List.mem_range'_1.mp hn
    rw [decodeIn_ofNat (by omega), hf, hi n low high]
  rw [List.countP_congr (q := fun _ => f i) (by grind)]
  cases f i <;> simp

/-- From number 0 on: `PUSH.ILL`, `PUSH.DEC`, `PUSH.ILL`, `PUSH.UC`, `PUSH.ILL`, `PUSH.LC`, `PUSH.ILL`, `END`. -/
theorem range_512_eq_blocks : List.range 512 =
    List.range' 0 48 ++ List.range' 48 10 ++ List.range' 58 7 ++ List.range' 65 6 ++ List.range' 71 26 ++
      List.range' 97 6 ++ List.range' 103 153 ++ List.range' 256 256 := by
  rw [List.range_eq_range']
  iterate 7 rw [List.range'_append_1]

theorem count_decodeIn {f : Instr → Bool} (hf : SeesOnlyTheClass f) :
    ((List.range 512).filter fun n => f (decodeIn (BitVec.ofNat 9 n))).length =
      10 * (f (.pushDec 0#8)).toNat + 6 * (f (.pushUC 0#8)).toNat + 6 * (f (.pushLC 0#8)).toNat +
        234 * (f (.pushIll 0#8)).toNat + 256 * (f (.endStream 0#8)).toNat := by
  rw [← List.countP_eq_length_filter, range_512_eq_blocks]
  simp only [List.countP_append]
  rw [countP_block hf (.pushIll 0#8), countP_block hf (.pushDec 0#8), countP_block hf (.pushIll 0#8),
    countP_block hf (.pushUC 0#8), countP_block hf (.pushIll 0#8), countP_block hf (.pushLC 0#8),
    countP_block hf (.pushIll 0#8), countP_block hf (.endStream 0#8)]
  · omega
  all_goals grind [operationAt]

/-- Settles O3: each count is of a test that holds on one class and not on the others. -/
theorem inputWordsPartitionByClass : Obligations.InputWordsPartitionByClass := by
  unfold Obligations.InputWordsPartitionByClass
  intro count
  have counts : ∀ {f : Instr → Bool}, SeesOnlyTheClass f → count f = _ := count_decodeIn
  clear_value count -- from here on `counts` is all that is known of it, and nothing is evaluated
  refine ⟨?_, ?_, ?_, ?_, ?_⟩ <;>
    exact counts (seesOnlyTheClass_of_operands (fun _ => rfl) (fun _ => rfl) (fun _ => rfl) (fun _ => rfl) fun _ => rfl)

end Sys2Proof
end

section
/-! PROOFS. The rows of the symbol map in the composed block (R61, R103): whatever a slot bus carries, its word runs
`SYM` on that slot. -/

namespace Sys2Proof.Machine

open Sys2Proof

/-- `SYM.V` and `SYM.ILL` have one meaning, so the test that tells them apart does not show. -/
theorem exec_decodeSlot_bus (slot : Slot) (s : State) :
    exec (decodeSlot slot.bus) s = s.whenRunning (encodeSlot slot s.regs) := by
  cases slot with
  | absent => rw [Slot.bus, decodeSlot_mkWord_true]; rfl
  | val v =>
    rw [Slot.bus, decodeSlot_mkWord_false]
    cases inRange 0 63 v with
    | true => rfl
    | false => rfl

/-- A slot that has a symbol appends it to the queue. -/
theorem exec_decodeSlot_of_sym {slot : Slot} {s : State} {y : Byte} (hrun : s.regs.errCode = .noError)
    (hy : sym slot s.regs.idx = .ok y) :
    exec (decodeSlot slot.bus) s = .next (s.complete s.regs [symw y]) := by
  rw [exec_decodeSlot_bus, whenRunning_of_running hrun, encodeSlot, hy]
  rfl

/-- Settles O22: `TRANSLATE` does not raise, so each slot has a symbol; each of the four operations appends its own and
leaves the registers, and `ENCODE4` lists the same four. -/
theorem translateIsFourSlotOperations : Obligations.TranslateIsFourSlotOperations := by
  unfold Obligations.TranslateIsFourSlotOperations
  intro t s hrun
  obtain ⟨out, hout, -⟩ := translateTriplet_ok t s.regs.idx
  rcases encode4_cases (xlat t) s.regs.idx with ⟨y0, y1, y2, y3, henc, h0, h1, h2, h3⟩ | ⟨v, henc⟩
  · refine ⟨_, _, _, _, _, exec_decodeSlot_of_sym hrun h0, exec_decodeSlot_of_sym hrun h1,
      exec_decodeSlot_of_sym hrun h2, exec_decodeSlot_of_sym hrun h3, henc, ?_⟩
    simp [State.complete]
  · cases hout.symm.trans henc

end Sys2Proof.Machine
end

section
/-! PROOFS. The hex decoder (R70). -/

namespace Sys2Proof

open Sys2Proof.Machine

/-- Settles O6: the table has 256 entries, and each of them is the value its character has by ranges. -/
theorem hexvalIsItsRangeForm : Obligations.HexvalIsItsRangeForm := by
  unfold Obligations.HexvalIsItsRangeForm
  exact hexval_eq_digitValue

end Sys2Proof
end

section
/-! PROOFS. The bit translator (R90 to R97): XLAT at each size of a triplet, the range of its values, and which slots
are absent. -/

namespace Sys2Proof.Machine

open Sys2Proof

/-! ### The slices -/

/-- Settles O9: the slices of `Triplet.bits`, which is the 24-bit value of R95. -/
theorem xlatIsFourSlices : Obligations.XlatIsFourSlices := by
  unfold Obligations.XlatIsFourSlices
  exact xlat_eq_slices

/-! ### The range of the values -/

theorem le_63_of_extractLsb'_high_eq_zero {v : Byte} (h : v.extractLsb' 6 2 = 0#2) : v ≤ 63#8 := by
  revert v; decide

theorem fitsSixBits_of_mem_xlat {t : Triplet} {slot : Slot}
    (h : slot ∈ [(xlat t).1, (xlat t).2.1, (xlat t).2.2.1, (xlat t).2.2.2]) : slot.FitsSixBits := by
  obtain ⟨fits0, fits1, fits2, fits3⟩ := xlat_fitsSixBits t
  simp only [List.mem_cons, List.not_mem_nil, or_false] at h
  rcases h with rfl | rfl | rfl | rfl
  · exact fits0
  · exact fits1
  · exact fits2
  · exact fits3

/-- Settles O10: every slot of `XLAT` fits in 6 bits, and three bytes of ones fill all four. -/
theorem xlatValuesAreAtMost63 : Obligations.XlatValuesAreAtMost63 := by
  unfold Obligations.XlatValuesAreAtMost63
  refine ⟨fun t v hv => ?_, by decide, fun t slot idx hslot => ?_⟩
  · exact le_63_of_extractLsb'_high_eq_zero (fitsSixBits_of_mem_xlat hv v rfl)
  · exact sym_of_fitsSixBits (fitsSixBits_of_mem_xlat hslot) idx

/-! ### XLAT at each size: a byte that is not present leaves zero bits (R94) -/

section
variable {t : Triplet}

theorem xlat_of_one (h : t.n = .one) :
    xlat t = (.val (t.b0 >>> 2), .val ((t.b0 &&& 0b11#8) <<< 4), .absent, .absent) := by
  simp [xlat, h]

theorem xlat_of_two (h : t.n = .two) :
    xlat t = (.val (t.b0 >>> 2), .val (((t.b0 &&& 0b11#8) <<< 4) ||| (t.b1 >>> 4)),
      .val ((t.b1 &&& 0b1111#8) <<< 2), .absent) := by
  simp [xlat, h]

theorem xlat_of_three (h : t.n = .three) :
    xlat t = (.val (t.b0 >>> 2), .val (((t.b0 &&& 0b11#8) <<< 4) ||| (t.b1 >>> 4)),
      .val (((t.b1 &&& 0b1111#8) <<< 2) ||| (t.b2 >>> 6)), .val (t.b2 &&& 0b111111#8)) := by
  simp [xlat, h]

end

theorem xlat_slot2_eq_absent_iff (t : Triplet) : (xlat t).2.2.1 = .absent ↔ t.n = .one := by
  cases h : t.n with
  | one => simp [xlat_of_one h]
  | two => simp [xlat_of_two h]
  | three => simp [xlat_of_three h]

theorem xlat_slot3_eq_absent_iff (t : Triplet) : (xlat t).2.2.2 = .absent ↔ t.n ≠ .three := by
  cases h : t.n with
  | one => simp [xlat_of_one h]
  | two => simp [xlat_of_two h]
  | three => simp [xlat_of_three h]

/-- Settles O11: at each size `XLAT` names the present bytes only, and masks a present byte without looking at it. -/
theorem slotPresenceDependsOnTheSizeOnly : Obligations.SlotPresenceDependsOnTheSizeOnly := by
  unfold Obligations.SlotPresenceDependsOnTheSizeOnly
  intro t
  refine ⟨nofun, nofun, xlat_slot2_eq_absent_iff t, xlat_slot3_eq_absent_iff t, fun x y h => ?_, fun y h => ?_,
    fun h hb2 => ?_, fun h hb1 => ?_⟩
  · rw [xlat_of_one (t := { t with b1 := x, b2 := y }) h, xlat_of_one h]
  · rw [xlat_of_two (t := { t with b2 := y }) h, xlat_of_two h]
  · rw [xlat_of_three h, hb2]; rfl
  · rw [xlat_of_two h, hb1]; rfl

/-- Settles O12: `XLAT` at each size, where an absent byte is not named. -/
theorem documentExamplesOfXlat : Obligations.DocumentExamplesOfXlat := by
  unfold Obligations.DocumentExamplesOfXlat
  refine ⟨?_, fun x => ?_, fun x y => ?_⟩
  · simp [xlat_of_three]
  · simp [xlat_of_two]
  · simp [xlat_of_one]

end Sys2Proof.Machine
end

section
/-! PROOFS. The symbol encoder (R101 to R104): SYM in closed form on the slots it has a symbol for, ENCODE4 as SYM along
the list of slots, and the rows of the symbol map. -/

namespace Sys2Proof.Machine

open Sys2Proof Sys2Proof.Reference

/-! ### SYM -/

theorem extractLsb'_high_eq_zero_iff {v : Byte} : v.extractLsb' 6 2 = 0#2 ↔ v ≤ 63#8 :=
  ⟨le_63_of_extractLsb'_high_eq_zero, by revert v; decide⟩

/-- The legal slots of R104 are those that fit in 6 bits. -/
theorem Slot.fitsSixBits_iff {slot : Slot} : slot.FitsSixBits ↔ ∀ v, slot = .val v → v ≤ 63#8 :=
  forall₂_congr fun _ _ => extractLsb'_high_eq_zero_iff

/-- The symbol of a legal slot (R101). -/
def Slot.symbol : Slot → Byte
  | .absent => padSymbol
  | .val v => symbolOf (v.truncate 6)

theorem sym_eq_symbol {slot : Slot} (h : slot.FitsSixBits) (idx : Nat) : sym slot idx = .ok slot.symbol := by
  cases slot with
  | absent => rfl
  | val v =>
    have low : v.extractLsb' 0 6 = v.truncate 6 := (BitVec.setWidth_eq_extractLsb' (by decide)).symm
    simp [sym, h v rfl, low, symrom_eq_symbolOf, Slot.symbol]

theorem sym_val_of_gt {v : Byte} (h : 63#8 < v) (idx : Nat) :
    sym (.val v) idx = .error (.raised .invalidSixBitValue v idx) := by
  have wide : v.extractLsb' 6 2 ≠ 0#2 := fun high => BitVec.not_le.mpr h (extractLsb'_high_eq_zero_iff.mp high)
  simp [sym, wide]

theorem symbolOf_mem_symromRows (a : SlotValue) : symbolOf a ∈ symromRows :=
  symrom_eq_symbolOf a ▸ symrom_mem_symromRows a

theorem Slot.symbol_mem (slot : Slot) : slot.symbol ∈ padSymbol :: symromRows := by
  cases slot with
  | absent => exact List.mem_cons_self
  | val v => exact List.mem_cons_of_mem _ (symbolOf_mem_symromRows _)

/-- A symbol stands at one address of `SYMROM` only (R104). -/
theorem valueOf_symbolOf (a : SlotValue) : valueOf (symbolOf a) = some a := by
  revert a; decide

theorem symbolOf_injective : Function.Injective symbolOf := fun a b h =>
  Option.some.inj ((valueOf_symbolOf a).symm.trans (h ▸ valueOf_symbolOf b))

/-- The pad is no symbol of a value, and the symbol of a value determines it. -/
theorem Slot.eq_of_symbol_eq {s1 s2 : Slot} (h1 : s1.FitsSixBits) (h2 : s2.FitsSixBits)
    (h : s1.symbol = s2.symbol) : s1 = s2 := by
  have not_pad : ∀ a, padSymbol ≠ symbolOf a := fun a ha =>
    padSymbol_notMem_symromRows (ha ▸ symbolOf_mem_symromRows a)
  rw [Slot.fitsSixBits_iff] at h1 h2
  cases s1 with
  | absent =>
    cases s2 with
    | absent => rfl
    | val v2 => exact absurd h (not_pad _)
  | val v1 =>
    cases s2 with
    | absent => exact absurd h.symm (not_pad _)
    | val v2 =>
      have low : v1.truncate 6 = v2.truncate 6 := symbolOf_injective h
      have small1 := h1 v1 rfl
      have small2 := h2 v2 rfl
      have same : v1 = v2 := by bv_omega
      rw [same]

/-- Settles O8: the symbol of a legal slot in closed form. -/
theorem symIsTotalAndInjectiveOnLegalSlots : Obligations.SymIsTotalAndInjectiveOnLegalSlots := by
  unfold Obligations.SymIsTotalAndInjectiveOnLegalSlots
  intro idx
  refine ⟨fun slot h => ⟨slot.symbol, slot.symbol_mem, sym_eq_symbol (Slot.fitsSixBits_iff.mpr h) idx⟩,
    fun s1 s2 h1 h2 h => ?_⟩
  have fits1 := Slot.fitsSixBits_iff.mpr h1
  have fits2 := Slot.fitsSixBits_iff.mpr h2
  rw [sym_eq_symbol fits1, sym_eq_symbol fits2] at h
  exact Slot.eq_of_symbol_eq fits1 fits2 (Except.ok.inj h)

/-! ### ENCODE4 and TRANSLATE -/

/-- ENCODE4 is SYM along the list of its slots. -/
theorem encode4_eq_mapM (s0 s1 s2 s3 : Slot) (idx : Nat) :
    encode4 (s0, s1, s2, s3) idx = List.map symw <$> [s0, s1, s2, s3].mapM (sym · idx) := by
  simp only [encode4, List.mapM_cons, List.mapM_nil, map_bind, map_pure, bind_assoc, pure_bind]
  rfl

theorem mapM_sym_of_fitsSixBits {slots : List Slot} (h : ∀ slot ∈ slots, slot.FitsSixBits) (idx : Nat) :
    slots.mapM (sym · idx) = .ok (slots.map Slot.symbol) := by
  induction slots with
  | nil => rfl
  | cons slot slots ih =>
    obtain ⟨hslot, hslots⟩ := List.forall_mem_cons.mp h
    rw [List.mapM_cons, sym_eq_symbol hslot, ih hslots]
    rfl

/-- The slots before the first offender have symbols, and those after it are not looked at. -/
theorem mapM_sym_of_offender {below : List Slot} {v : Byte} (above : List Slot)
    (hbelow : ∀ slot ∈ below, slot.FitsSixBits) (hv : 63#8 < v) (idx : Nat) :
    (below ++ .val v :: above).mapM (sym · idx) = .error (.raised .invalidSixBitValue v idx) := by
  rw [List.mapM_append, mapM_sym_of_fitsSixBits hbelow, List.mapM_cons, sym_val_of_gt hv]
  rfl

/-- Settles O13: SYM along a list of legal slots, and along one with a first offender. -/
theorem encode4IsAllOrTheLowestOffender : Obligations.Encode4IsAllOrTheLowestOffender := by
  unfold Obligations.Encode4IsAllOrTheLowestOffender
  intro s0 s1 s2 s3 idx legal symOf
  have fits : ∀ {slot}, legal slot → slot.FitsSixBits := Slot.fitsSixBits_iff.mpr
  have symOf_eq : symOf = Slot.symbol := funext fun slot => by cases slot <;> rfl
  rw [encode4_eq_mapM, symOf_eq]
  refine ⟨fun ⟨h0, h1, h2, h3⟩ => ?_, fun below v above hsplit hbelow hv => ?_⟩
  · rw [mapM_sym_of_fitsSixBits (by simp [fits h0, fits h1, fits h2, fits h3])]
    rfl
  · rw [hsplit, mapM_sym_of_offender above (fun slot hslot => fits (hbelow slot hslot)) hv]
    rfl

/-- Settles O14: the group of one, two or three bytes has four words. -/
theorem translateIsTheBase64Group : Obligations.TranslateIsTheBase64Group := by
  unfold Obligations.TranslateIsTheBase64Group
  intro t idx
  refine ⟨translateTriplet_eq_base64Group t idx, ?_⟩
  cases t.n with
  | one => rfl
  | two => rfl
  | three => rfl

/-! ### The rows of the symbol map -/

section
variable {slot : Slot} {s : State} (hrun : s.regs.errCode = .noError)
include hrun

theorem whenRunning_encodeSlot_of_fitsSixBits (h : slot.FitsSixBits) :
    s.whenRunning (encodeSlot slot s.regs) = .next (s.complete s.regs [symw slot.symbol]) := by
  rw [← exec_decodeSlot_bus, exec_decodeSlot_of_sym hrun (sym_eq_symbol h _)]

theorem whenRunning_encodeSlot_of_gt {v : Byte} (h : 63#8 < v) :
    s.whenRunning (encodeSlot (.val v) s.regs) = .next (s.takeError .invalidSixBitValue v s.regs.idx) := by
  rw [whenRunning_of_running hrun, encodeSlot, sym_val_of_gt h]
  rfl

end

/-- Settles O21: each row runs SYM on its slot, which is legal for `SYM.V` and `SYM.PAD` and an offender for
`SYM.ILL`. -/
theorem slotOperationsEmitTheirSymbol : Obligations.SlotOperationsEmitTheirSymbol := by
  unfold Obligations.SlotOperationsEmitTheirSymbol
  intro v s hrun
  refine ⟨fun h => ?_, ?_, fun h => ?_⟩
  · exact whenRunning_encodeSlot_of_fitsSixBits hrun (Slot.fitsSixBits_val (extractLsb'_high_eq_zero_iff.mpr h))
  · exact whenRunning_encodeSlot_of_fitsSixBits hrun Slot.fitsSixBits_absent
  · exact whenRunning_encodeSlot_of_gt hrun h

end Sys2Proof.Machine
end

section
/-! PROOFS. The four `PUSH` operations (R111 to R114): the register updates of an accepted character, and the raise of an
illegal one. -/

namespace Sys2Proof.Machine

open Sys2Proof Sys2Proof.Reference

/-! ### Settling -/

theorem settle_ok (s : State) (r : Regs) (out : List OutWord) :
    s.settle (.ok (r, out)) = .next (s.complete r out) := rfl

theorem settle_raised (s : State) (k : ErrorKind) (c : Byte) (n : Nat) :
    s.settle (.error (.raised k c n)) = .next (s.takeError k c n) := rfl

/-! ### A legal `PUSH` -/

/-- The three mnemonics differ in the class of their operand only: each accepts the value of its character. -/
theorem execWith_of_legalPush {i : Instr} {nib : Nibble} (h : LegalPush i nib) (p : Params) (s : State) :
    execWith p i s = s.whenRunning (acceptNibble p nib s.regs) := by
  obtain ⟨hclass, c, rfl | rfl | rfl, hvalue⟩ := h
  · cases (digitValue_of_dec hclass).symm.trans hvalue; rfl
  · cases (digitValue_of_upper hclass).symm.trans hvalue; rfl
  · cases (digitValue_of_lower hclass).symm.trans hvalue; rfl

/-- At any registers: an accepted character leaves the error code alone and emits nothing or one group, or finds
`CNT == 3`. It never raises. -/
theorem acceptNibble_outcomes (p : Params) (nib : Nibble) (r : Regs) :
    (∃ r' out, acceptNibble p nib r = .ok (r', out) ∧ r'.errCode = r.errCode ∧
      (out.length = 0 ∨ out.length = 4)) ∨
    (r.cnt = 3#2 ∧ acceptNibble p nib r = .error .noSuchCount) := by
  by_cases h3 : r.cnt = 3#2
  · cases hn : r.nibf with
    | false => exact .inl ⟨_, _, acceptNibble_of_free hn nib, rfl, .inl rfl⟩
    | true => exact .inr ⟨h3, acceptNibble_of_cnt_three h3 p hn nib⟩
  · left
    rcases acceptNibble_cases p nib h3 with ⟨-, ha⟩ | ⟨-, -, ha⟩ | ⟨-, -, ha⟩ | ⟨hn, hc, -⟩
    · exact ⟨_, _, ha, rfl, .inl rfl⟩
    · exact ⟨_, _, ha, rfl, .inl rfl⟩
    · exact ⟨_, _, ha, rfl, .inl rfl⟩
    · exact ⟨_, _, acceptNibble_of_full p hn hc nib, rfl, .inr rfl⟩

/-- A legal `PUSH` that has a next state completed. -/
theorem complete_of_legalPush {p : Params} {i : Instr} {nib : Nibble} {s t : State} (hpush : LegalPush i nib)
    (h : execWith p i s = .next t) :
    ∃ r out, acceptNibble p nib s.regs = .ok (r, out) ∧ t = s.complete r out := by
  obtain ⟨-, completed | ⟨k, c, n, herr, -⟩⟩ := whenRunning_cases (execWith_of_legalPush hpush p s ▸ h)
  · exact completed
  · rcases acceptNibble_outcomes p nib s.regs with ⟨_, _, ha, -⟩ | ⟨-, ha⟩ <;> cases herr.symm.trans ha

/-- The control state `(NIBF, CNT)` as a number (R117). -/
def Regs.control (r : Regs) : Nat := 2 * r.cnt.toNat + r.nibf.toNat

/-- An accepted character advances the control state round its cycle of six (R117). -/
theorem acceptNibble_control {p : Params} {nib : Nibble} {r r' : Regs} {out : List OutWord} (hcnt : r.cnt ≠ 3#2)
    (ha : acceptNibble p nib r = .ok (r', out)) : r'.control = (r.control + 1) % 6 := by
  rcases acceptNibble_cases p nib hcnt with ⟨hn, he⟩ | ⟨hn, hc, he⟩ | ⟨hn, hc, he⟩ | ⟨hn, hc, _, he, -⟩ <;>
    cases ha.symm.trans he
  · have small : r.cnt.toNat < 3 := by bv_omega
    simp [Regs.control, hn]; omega
  · simp [Regs.control, hn, hc]
  · simp [Regs.control, hn, hc]
  · simp [Regs.control, hn, hc]

/-- Settles O15: the update of each control state, and the group of a completed triplet. -/
theorem legalPushBuildsBytesAndTriplets : Obligations.LegalPushBuildsBytesAndTriplets := by
  unfold Obligations.LegalPushBuildsBytesAndTriplets
  intro i nib s hpush hrun hcontrol r after
  have any : ∀ p, execWith p i s = .next (after p) := by
    intro p
    rw [execWith_of_legalPush hpush, whenRunning_of_running hrun]
    cases hn : s.regs.nibf with
    | false =>
      rw [acceptNibble_of_free hn, settle_ok]
      simp [after, r, hn, State.complete, Regs.countChar]
    | true =>
      rcases acceptNibble_cases p nib (hcontrol.resolve_left (by simp [hn])) with
        ⟨hfree, -⟩ | ⟨-, hc, ha⟩ | ⟨-, hc, ha⟩ | ⟨-, hc, -⟩
      · cases hn.symm.trans hfree
      · rw [ha, settle_ok]
        simp [after, r, hn, hc, State.complete, Regs.countChar]
      · rw [ha, settle_ok]
        simp [after, r, hn, hc, State.complete, Regs.countChar]
      · rw [acceptNibble_of_full p hn hc, settle_ok]
        simp [after, r, hn, hc, State.complete, Regs.countChar, Regs.clearGroup]
  exact ⟨(exec_eq_execWith_default i s).trans (any _), any⟩

/-! ### `PUSH.UC` and `PUSH.LC` -/

/-- Bit 5 takes the upper-case digits to the lower-case ones and is not read for the nibble. -/
theorem lowerCase_of_upperCase {c : Byte} (h : inRange 0x41 0x46 c = true) :
    inRange 0x61 0x66 (c + 0x20#8) = true ∧ nibbleOfLetter (c + 0x20#8) = nibbleOfLetter c := by
  revert c; decide

/-- Settles O16: both letters have one nibble. -/
theorem letterCaseDoesNotMatter : Obligations.LetterCaseDoesNotMatter := by
  unfold Obligations.LetterCaseDoesNotMatter
  intro c s hupper
  obtain ⟨hlower, hnib⟩ := lowerCase_of_upperCase hupper
  have same : ∀ p, execWith p (.pushUC c) s = execWith p (.pushLC (c + 0x20#8)) s := by
    intro p
    show s.whenRunning (acceptNibble p (nibbleOfLetter c) s.regs) = s.whenRunning (acceptNibble p (nibbleOfLetter _) _)
    rw [hnib]
  refine ⟨hlower, ?_, same⟩
  rw [exec_eq_execWith_default, exec_eq_execWith_default, same]

/-! ### `PUSH.ILL` -/

theorem execWith_pushIll {s : State} (hrun : s.regs.errCode = .noError) (p : Params) (c : Byte) :
    execWith p (.pushIll c) s = .next (s.takeError .invalidHexDigit c s.regs.idx) := by
  show s.whenRunning _ = _
  rw [whenRunning_of_running hrun, settle_raised]

/-- Settles O17: the raise is settled as the state with its record. -/
theorem illegalCharacterRaisesInvalidHexDigit : Obligations.IllegalCharacterRaisesInvalidHexDigit := by
  unfold Obligations.IllegalCharacterRaisesInvalidHexDigit
  intro c s _ hrun
  exact (exec_eq_execWith_default _ _).trans (execWith_pushIll hrun _ c)

end Sys2Proof.Machine
end

section
/-! PROOFS. `END` in closed form (R115): it emits the Base64 of the bytes it finds pending and the marker, or raises. -/

namespace Sys2Proof.Machine

open Sys2Proof Sys2Proof.Reference

/-! ### The registers it leaves -/

/-- The registers after `FLUSH`. -/
def Regs.flushed (r : Regs) : Regs := if r.cnt = 0#2 then r else r.clearGroup

@[simp] theorem flushed_cnt (r : Regs) : r.flushed.cnt = 0#2 := by
  unfold Regs.flushed; split
  · assumption
  · rfl

@[simp] theorem flushed_nibf (r : Regs) : r.flushed.nibf = r.nibf := by
  unfold Regs.flushed; split <;> rfl

@[simp] theorem flushed_errCode (r : Regs) : r.flushed.errCode = r.errCode := by
  unfold Regs.flushed; split <;> rfl

theorem flushed_of_canonical {r : Regs} (h : r.Canonical) : r.flushed = r.clearGroup := by
  obtain ⟨-, hzero, -⟩ := h
  unfold Regs.flushed
  split
  · next h0 => exact (clearGroup_of_empty h0 (hzero h0).1 (hzero h0).2).symm
  · rfl

/-- The registers after a completed `END` (R115). -/
def Regs.afterEnd (r : Regs) : Regs :=
  { (if r.nibf then ({ r with hi := 0#4, nibf := false } : Regs).clearGroup else r.flushed) with idx := 0 }

@[simp] theorem afterEnd_cnt (r : Regs) : r.afterEnd.cnt = 0#2 := by
  unfold Regs.afterEnd; split <;> simp

@[simp] theorem afterEnd_nibf (r : Regs) : r.afterEnd.nibf = false := by
  unfold Regs.afterEnd; split <;> simp_all

@[simp] theorem afterEnd_errCode (r : Regs) : r.afterEnd.errCode = r.errCode := by
  unfold Regs.afterEnd; split <;> simp

theorem afterEnd_eq_reset {r : Regs} (hcanon : r.Canonical) (hrun : r.errCode = .noError)
    (hrecord : r.errChar = 0#8 ∧ r.errIndex = 0) : r.afterEnd = Regs.reset := by
  unfold Regs.afterEnd
  cases hn : r.nibf with
  | true => exact drained_eq_reset (r := { r with hi := 0#4, nibf := false }) rfl rfl hrun hrecord
  | false => rw [flushed_of_canonical hcanon]; exact drained_eq_reset (hcanon.1 hn) hn hrun hrecord

/-! ### Its effect -/

section
variable {r : Regs} (hcnt : r.cnt ≠ 3#2)
include hcnt

/-- FLUSH and the translation after it give the Base64 of the bytes held. -/
theorem drainGroup_eq : drainGroup r = .ok (r.flushed, base64Text r.heldBytes) := by
  rcases flush_cases r with ⟨h, -⟩ | ⟨h, hf⟩ | ⟨h, hf⟩ | ⟨h, -⟩
  · rw [drainGroup_of_cnt_zero h]
    simp [Regs.flushed, Regs.heldBytes, h, base64Text, base64Group]
  · rw [drainGroup_of_issued hf (translateTriplet_eq_base64Group _ _)]
    simp [Regs.flushed, Regs.heldBytes, h, TripletSize.count, base64Text]
  · rw [drainGroup_of_issued hf (translateTriplet_eq_base64Group _ _)]
    simp [Regs.flushed, Regs.heldBytes, h, TripletSize.count, base64Text]
  · exact absurd h hcnt

/-- A last byte and the drain after it give, between them, the Base64 of the bytes held and that byte. -/
theorem deliverByte_then_drainGroup_eq (byte : Byte) :
    ∃ r1 out1 out2, deliverByte byte r = .ok (r1, out1) ∧ drainGroup r1 = .ok (r.clearGroup, out2) ∧
      out1 ++ out2 = base64Text (r.heldBytes ++ [byte]) := by
  rcases group_cases byte r with ⟨h, hg⟩ | ⟨h, hg⟩ | ⟨h, hg⟩ | ⟨h, -⟩
  · refine ⟨_, _, _, deliverByte_of_stored hg, drainGroup_eq (r := { r with b0 := byte, cnt := 1#2 }) (by simp), ?_⟩
    simp [Regs.heldBytes, h]
  · refine ⟨_, _, _, deliverByte_of_stored hg, drainGroup_eq (r := { r with b1 := byte, cnt := 2#2 }) (by simp), ?_⟩
    simp [Regs.heldBytes, h]
  · refine ⟨_, _, _, deliverByte_of_issued hg (translateTriplet_eq_base64Group _ _), drainGroup_of_cnt_zero rfl, ?_⟩
    simp [Regs.heldBytes, h, TripletSize.count, base64Text, base64Group]
  · exact absurd h hcnt

/-- A completed `END` emits the Base64 of the pending bytes and the marker. -/
theorem finishStream_eq {p : Params} (h : r.nibf = false ∨ p.oddPolicy = .zeroPad) :
    finishStream p r = .ok (r.afterEnd, base64Text (pendingBytes r) ++ [endw]) := by
  cases hn : r.nibf with
  | false =>
    rw [finishStream_of_even hn (drainGroup_eq hcnt)]
    simp [Regs.afterEnd, hn, pendingBytes, Regs.heldBytes]
  | true =>
    obtain ⟨r1, out1, out2, h1, h2, hout⟩ :=
      deliverByte_then_drainGroup_eq (r := { r with hi := 0#4, nibf := false }) hcnt (byteOf r.hi 0#4)
    rw [finishStream_of_padded hn (h.resolve_left (by simp [hn])) h1 h2, hout]
    simp [Regs.afterEnd, hn, pendingBytes, Regs.heldBytes]

end

/-- The odd length is noticed before GROUPER is asked. -/
theorem finishStream_of_cnt_three_of_completes {p : Params} {r : Regs} (h3 : r.cnt = 3#2)
    (h : r.nibf = false ∨ p.oddPolicy = .zeroPad) : finishStream p r = .error .noSuchCount := by
  unfold finishStream
  rcases pairEnd_cases p r with ⟨-, hp⟩ | ⟨-, -, hp⟩ | ⟨hn, hpol, -⟩
  · rw [hp]
    show (drainGroup r >>= _) = _
    rw [drainGroup_of_cnt_three h3]; rfl
  · rw [hp]
    show (deliverByte _ _ >>= _) = _
    rw [deliverByte_of_cnt_three (r := { r with hi := 0#4, nibf := false }) h3]; rfl
  · simp [hn, hpol] at h

/-- Whether `END` completes depends on the pending nibble and the policy. -/
theorem completes_or_raises (p : Params) (r : Regs) :
    (r.nibf = false ∨ p.oddPolicy = .zeroPad) ∨ (r.nibf = true ∧ p.oddPolicy = .error) := by
  cases r.nibf <;> cases p.oddPolicy <;> simp

/-- At any registers: `END` completes, or raises for the pending nibble, or finds `CNT == 3`. -/
theorem finishStream_outcomes (p : Params) (r : Regs) :
    (r.cnt ≠ 3#2 ∧ finishStream p r = .ok (r.afterEnd, base64Text (pendingBytes r) ++ [endw])) ∨
    (r.nibf = true ∧ p.oddPolicy = .error ∧ finishStream p r = .error (.raised .oddHexLength 0#8 r.idx)) ∨
    (r.cnt = 3#2 ∧ finishStream p r = .error .noSuchCount) := by
  rcases completes_or_raises p r with h | ⟨hn, hpol⟩
  · by_cases h3 : r.cnt = 3#2
    · exact .inr (.inr ⟨h3, finishStream_of_cnt_three_of_completes h3 h⟩)
    · exact .inl ⟨h3, finishStream_eq h3 h⟩
  · exact .inr (.inl ⟨hn, hpol, finishStream_of_odd_error hn hpol⟩)

/-- What an `END` that has a next state did. -/
theorem execWith_endStream_cases {p : Params} {ignored : Byte} {s t : State}
    (h : execWith p (.endStream ignored) s = .next t) :
    s.regs.errCode = .noError ∧
    (t = s.complete s.regs.afterEnd (base64Text (pendingBytes s.regs) ++ [endw]) ∨
      t = s.takeError .oddHexLength 0#8 s.regs.idx) := by
  obtain ⟨hrun, -⟩ := whenRunning_cases (e := finishStream p s.regs) h
  refine ⟨hrun, ?_⟩
  replace h : s.settle (finishStream p s.regs) = .next t := whenRunning_of_running hrun _ ▸ h
  rcases finishStream_outcomes p s.regs with ⟨-, he⟩ | ⟨-, -, he⟩ | ⟨-, he⟩ <;> rw [he] at h <;> cases h
  · exact .inl rfl
  · exact .inr rfl

theorem length_base64Text (bs : List Byte) : (base64Text bs).length = 4 * ((bs.length + 2) / 3) := by
  induction bs using completeGroups.induct with
  | case1 a b c rest ih => simp [base64Text, base64Group, ih]; omega
  | case2 a b => simp [base64Text, base64Group]
  | case3 a => simp [base64Text, base64Group]
  | case4 => rfl

/-- At most three bytes are pending, so `END` emits at most one group before the marker. -/
theorem length_emission_of_end (r : Regs) :
    (base64Text (pendingBytes r) ++ [endw]).length = 1 ∨ (base64Text (pendingBytes r) ++ [endw]).length = 5 := by
  have pending : (pendingBytes r).length ≤ 3 := by
    have nibble : (if r.nibf then [byteOf r.hi 0#4] else []).length ≤ 1 := by split <;> simp
    simp only [pendingBytes, List.length_append, List.length_take, List.length_cons, List.length_nil]
    omega
  rw [List.length_append, length_base64Text, List.length_singleton]
  omega

/-- Settles O18: the two ways `END` settles, with the registers after it canonical. -/
theorem endDrainsOrRaisesOddHexLength : Obligations.EndDrainsOrRaisesOddHexLength := by
  unfold Obligations.EndDrainsOrRaisesOddHexLength
  intro ignored s hrun drained
  refine ⟨fun hcnt hcanon hchar hindex => ?_, fun p hn hpol => ?_⟩
  · have drains : ∀ p : Params, s.regs.nibf = false ∨ p.oddPolicy = .zeroPad →
        execWith p (.endStream ignored) s = .next drained := by
      intro p h
      show s.whenRunning (finishStream p s.regs) = _
      rw [whenRunning_of_running hrun, finishStream_eq hcnt h, settle_ok,
        afterEnd_eq_reset hcanon hrun ⟨hchar, hindex⟩, State.complete, ← List.append_assoc]
      rfl
    exact ⟨(exec_eq_execWith_default _ _).trans (drains _ (.inr rfl)), drains⟩
  · show s.whenRunning (finishStream p s.regs) = _
    rw [whenRunning_of_running hrun, finishStream_of_odd_error hn hpol]
    rfl

end Sys2Proof.Machine
end

section
/-! PROOFS. All operations side by side: which of them run in the error state, which parameters they read, how much they
emit (R118), and how the control state moves (R117). -/

namespace Sys2Proof.Machine

open Sys2Proof Sys2Proof.Reference

/-! ### `RST`, the error state and the parameters -/

/-- Settles O19: `RST` reads nothing of the state. -/
theorem resetClearsRegistersAndQueue : Obligations.ResetClearsRegistersAndQueue := by
  unfold Obligations.ResetClearsRegistersAndQueue
  exact fun s => ⟨_, rfl, rfl, rfl, rfl⟩

/-- Settles O20: every operation but `RST` is guarded by `ERR_CODE == 0`. -/
theorem onlyResetRunsInTheErrorState : Obligations.OnlyResetRunsInTheErrorState := by
  unfold Obligations.OnlyResetRunsInTheErrorState
  intro i s herr hi
  have stuck : ∀ p, execWith p i s = .fault .stuckInErrorState := by
    intro p
    obtain ⟨e, hexec, -⟩ := execWith_eq_whenRunning p hi s
    rw [hexec, whenRunning_of_error herr]
  exact ⟨(exec_eq_execWith_default i s).trans (stuck _), stuck⟩

/-- Two parameter sets that differ in `OQ_DEPTH` only: no meaning reads it. -/
theorem execWith_congr {p q : Params} (hpol : p.oddPolicy = q.oddPolicy) (hw : p.idxW = q.idxW) (i : Instr) (s : State) :
    execWith p i s = execWith q i s := by
  obtain ⟨policy, width, depth⟩ := p
  obtain ⟨policy', width', depth'⟩ := q
  cases hpol
  cases hw
  cases i with
  | pushDec c => rfl
  | pushUC c => rfl
  | pushLC c => rfl
  | pushIll c => rfl
  | endStream ignored => rfl
  | rst => rfl
  | symV v => rfl
  | symPad ignored => rfl
  | symIll v => rfl

/-- Settles O50: the meanings of `PUSH.ILL`, `RST` and the `SYM` rows take no parameters. -/
theorem onlyOddPolicyAndIndexWidthMatterToAStep : Obligations.OnlyOddPolicyAndIndexWidthMatterToAStep := by
  unfold Obligations.OnlyOddPolicyAndIndexWidthMatterToAStep
  intro p q i s
  exact ⟨fun hpol hw => execWith_congr hpol hw i s, fun _ => rfl, rfl, fun _ => rfl, fun _ => rfl, fun _ => rfl⟩

/-! ### Sizes of emissions and the control state -/

/-- Settles O24: the emission of each operation is that of its effect, and a raise emits nothing. -/
theorem emissionSizes : Obligations.EmissionSizes := by
  unfold Obligations.EmissionSizes
  intro p s t
  refine ⟨fun i nib hpush h => ?_, fun c h => ?_, fun c h => ?_, fun h => ?_⟩
  · obtain ⟨r, out, hok, rfl⟩ := complete_of_legalPush hpush h
    rcases acceptNibble_outcomes p nib s.regs with ⟨_, _, ha, -, hlen⟩ | ⟨-, ha⟩ <;> cases hok.symm.trans ha
    exact ⟨out, rfl, hlen⟩
  · obtain ⟨hrun, -⟩ := whenRunning_cases (e := .error _) h
    cases (execWith_pushIll hrun p c).symm.trans h
    rfl
  · obtain ⟨hrun, rfl | rfl⟩ := execWith_endStream_cases h
    · refine ⟨_, rfl, fun _ => length_emission_of_end s.regs, fun hfailed => ?_⟩
      exact absurd ((afterEnd_errCode s.regs).trans hrun) hfailed
    · exact ⟨[], by simp, nofun, fun _ => rfl⟩
  · cases h
    rfl

/-- An effect that leaves the error code alone if it completes: an error is recorded by a raise only (R8). -/
def Effect.KeepsErrCode (r : Regs) (e : Effect) : Prop := ∀ r' out, e = .ok (r', out) → r'.errCode = r.errCode

theorem acceptNibble_keepsErrCode (p : Params) (nib : Nibble) (r : Regs) :
    (acceptNibble p nib r).KeepsErrCode r := by
  intro r' out hok
  rcases acceptNibble_outcomes p nib r with ⟨_, _, ha, hcode, -⟩ | ⟨-, ha⟩ <;> cases hok.symm.trans ha
  exact hcode

theorem finishStream_keepsErrCode (p : Params) (r : Regs) : (finishStream p r).KeepsErrCode r := by
  intro r' out hok
  rcases finishStream_outcomes p r with ⟨-, he⟩ | ⟨-, -, he⟩ | ⟨-, he⟩ <;> cases hok.symm.trans he
  exact afterEnd_errCode r

theorem encodeSlot_keepsErrCode (slot : Slot) (r : Regs) : (encodeSlot slot r).KeepsErrCode r := by
  intro r' out hok
  unfold encodeSlot at hok
  rcases sym_cases slot r.idx with ⟨-, h⟩ | ⟨v, -, -, h⟩ | ⟨v, -, -, h⟩ <;> rw [h] at hok <;> cases hok <;> rfl

/-- Every operation but `RST` is guarded and leaves the error code alone if it completes. -/
theorem execWith_keepsErrCode (p : Params) {i : Instr} (hi : i ≠ .rst) (s : State) :
    ∃ e : Effect, execWith p i s = s.whenRunning e ∧ e.KeepsErrCode s.regs := by
  cases i with
  | pushDec c => exact ⟨_, rfl, acceptNibble_keepsErrCode p _ _⟩
  | pushUC c => exact ⟨_, rfl, acceptNibble_keepsErrCode p _ _⟩
  | pushLC c => exact ⟨_, rfl, acceptNibble_keepsErrCode p _ _⟩
  | pushIll c => exact ⟨_, rfl, nofun⟩
  | endStream ignored => exact ⟨_, rfl, finishStream_keepsErrCode p _⟩
  | rst => exact absurd rfl hi
  | symV v => exact ⟨_, rfl, encodeSlot_keepsErrCode _ _⟩
  | symPad ignored => exact ⟨_, rfl, encodeSlot_keepsErrCode _ _⟩
  | symIll v => exact ⟨_, rfl, encodeSlot_keepsErrCode _ _⟩

/-- What ends in the error state has taken an error. -/
theorem eq_takeError_of_failed {p : Params} {i : Instr} {s t : State} (h : execWith p i s = .next t)
    (hfailed : t.regs.errCode ≠ .noError) : ∃ k c n, t = s.takeError k c n := by
  by_cases hi : i = .rst
  · subst hi
    cases h
    exact absurd rfl hfailed
  · obtain ⟨e, hexec, hkeeps⟩ := execWith_keepsErrCode p hi s
    obtain ⟨hrun, ⟨r, out, hok, rfl⟩ | ⟨k, c, n, -, rfl⟩⟩ := whenRunning_cases (hexec ▸ h)
    · exact absurd ((hkeeps r out hok).trans hrun) hfailed
    · exact ⟨k, c, n, rfl⟩

/-- Settles O26: the advance of an accepted character, the registers after `END`, and the frame of an error. -/
theorem controlStateCyclesThroughSix : Obligations.ControlStateCyclesThroughSix := by
  unfold Obligations.ControlStateCyclesThroughSix
  intro p i s t hrun hcnt h pos
  refine ⟨fun nib hpush => ?_, fun c hi hok => ?_, fun hfailed => ?_⟩
  · obtain ⟨r, out, ha, rfl⟩ := complete_of_legalPush hpush h
    exact acceptNibble_control hcnt ha
  · subst hi
    obtain ⟨-, rfl | rfl⟩ := execWith_endStream_cases h
    · simp [pos]
    · cases hok
  · obtain ⟨k, c, n, rfl⟩ := eq_takeError_of_failed h hfailed
    rfl

end Sys2Proof.Machine
end

section
/-! PROOFS. What an input word does, whatever it is (R110, R126, R127): one effect on the registers, and from it the
transaction-level step and the clock edge. -/

namespace Sys2Proof.Machine

open Sys2Proof Sys2Proof.Reference

/-! ### The effect of an input word -/

/-- The effect of an input word on registers `r`: `END`, an accepted character, or the raise of an illegal one (R59). -/
def wordEffect (p : Params) (w : InWord) (r : Regs) : Effect :=
  if wordTag w then finishStream p r
  else match digitValue (wordLow w) with
    | some nib => acceptNibble p nib r
    | none => .error (.raised .invalidHexDigit (wordLow w) r.idx)

theorem wordEffect_end (p : Params) (ignored : Byte) (r : Regs) :
    wordEffect p (mkWord true ignored) r = finishStream p r := by
  simp [wordEffect]

theorem wordEffect_push {c : Byte} {nib : Nibble} (h : digitValue c = some nib) (p : Params) (r : Regs) :
    wordEffect p (mkWord false c) r = acceptNibble p nib r := by
  simp [wordEffect, h]

theorem wordEffect_illegal {c : Byte} (h : digitValue c = none) (p : Params) (r : Regs) :
    wordEffect p (mkWord false c) r = .error (.raised .invalidHexDigit c r.idx) := by
  simp [wordEffect, h]

/-- An input word is a `PUSH` of a hex digit, a `PUSH` of another character, or an `END`. -/
theorem inWord_cases (w : InWord) :
    (∃ c nib, w = mkWord false c ∧ digitValue c = some nib) ∨ (∃ c, w = mkWord false c ∧ digitValue c = none) ∨
      ∃ ignored, w = mkWord true ignored := by
  cases tag : wordTag w with
  | true => exact .inr (.inr ⟨_, (mkWord_of_wordTag tag).symm⟩)
  | false =>
    cases hc : digitValue (wordLow w) with
    | some nib => exact .inl ⟨_, nib, (mkWord_of_wordTag tag).symm, hc⟩
    | none => exact .inr (.inl ⟨_, (mkWord_of_wordTag tag).symm, hc⟩)

theorem decodeIn_of_illegal {c : Byte} (h : digitValue c = none) : decodeIn (mkWord false c) = .pushIll c := by
  rcases decodeIn_cases (mkWord false c) with ⟨nib, hn, -⟩ | ⟨-, -, hdec⟩ | ⟨htag, -⟩
  · rw [wordLow_mkWord, h] at hn
    cases hn
  · rwa [wordLow_mkWord] at hdec
  · rw [wordTag_mkWord] at htag
    cases htag

/-- The operation a word decodes to is the guarded effect of the word. -/
theorem execWith_decodeIn (p : Params) (w : InWord) (s : State) :
    execWith p (decodeIn w) s = s.whenRunning (wordEffect p w s.regs) := by
  rcases inWord_cases w with ⟨c, nib, rfl, hc⟩ | ⟨c, rfl, hc⟩ | ⟨ignored, rfl⟩
  · rw [execWith_push hc, wordEffect_push hc]
  · rw [decodeIn_of_illegal hc, wordEffect_illegal hc]; rfl
  · rw [decodeIn_mkWord_true, wordEffect_end]; rfl

/-- What R22 asks of the registers of a running block, but for `IDX`. -/
def Regs.Clean (r : Regs) : Prop := r.cnt ≠ 3#2 ∧ r.Canonical ∧ r.errChar = 0#8 ∧ r.errIndex = 0

theorem regs_reset_clean : Regs.reset.Clean := by
  unfold Regs.Clean; decide

theorem Regs.Inv.clean {p : Params} {r : Regs} (h : r.Inv p) (hrun : r.errCode = .noError) : r.Clean := by
  obtain ⟨hcnt, hcanon, -, hrecord⟩ := h
  exact ⟨hcnt, hcanon, (recordAgrees_iff_of_running hrun).mp hrecord⟩

theorem afterEnd_of_clean {r : Regs} (h : r.Clean) (hrun : r.errCode = .noError) : r.afterEnd = Regs.reset := by
  obtain ⟨-, hcanon, hrecord⟩ := h
  exact afterEnd_eq_reset hcanon hrun hrecord

theorem acceptNibble_clean {p : Params} {nib : Nibble} {r r' : Regs} {out : List OutWord} (h : r.Clean)
    (ha : acceptNibble p nib r = .ok (r', out)) : r'.Clean := by
  obtain ⟨hcnt, ⟨-, hzero, hone⟩, hrecord⟩ := h
  rcases acceptNibble_cases p nib hcnt with ⟨-, he⟩ | ⟨-, h0, he⟩ | ⟨-, -, he⟩ | ⟨-, -, _, he, -⟩ <;>
    cases ha.symm.trans he
  · exact ⟨hcnt, ⟨nofun, hzero, hone⟩, hrecord⟩
  · exact ⟨by simp, ⟨fun _ => rfl, nofun, fun _ => (hzero h0).2⟩, hrecord⟩
  · exact ⟨by simp, ⟨fun _ => rfl, nofun, nofun⟩, hrecord⟩
  · exact ⟨by simp, ⟨fun _ => rfl, fun _ => ⟨rfl, rfl⟩, nofun⟩, hrecord⟩

/-- At any registers: an input word completes, with the error code as it was; or it raises, for an illegal character or
for an odd length under the policy `ERROR`; or it finds `CNT == 3`. -/
theorem wordEffect_outcomes (p : Params) (w : InWord) (r : Regs) :
    (∃ r' out, wordEffect p w r = .ok (r', out) ∧ r'.errCode = r.errCode ∧ out.length ≤ maxEmission ∧
      (r.Clean → r.errCode = .noError → r'.Clean)) ∨
    (∃ c, decodeIn w = .pushIll c ∧ wordEffect p w r = .error (.raised .invalidHexDigit c r.idx)) ∨
    (p.oddPolicy = .error ∧ wordEffect p w r = .error (.raised .oddHexLength 0#8 r.idx)) ∨
    (r.cnt = 3#2 ∧ wordEffect p w r = .error .noSuchCount) := by
  rcases inWord_cases w with ⟨c, nib, rfl, hc⟩ | ⟨c, rfl, hc⟩ | ⟨ignored, rfl⟩
  · rw [wordEffect_push hc]
    rcases acceptNibble_outcomes p nib r with ⟨r', out, ha, hcode, hlen⟩ | ⟨h3, ha⟩
    · exact .inl ⟨r', out, ha, hcode, show out.length ≤ 5 by omega, fun hclean _ => acceptNibble_clean hclean ha⟩
    · exact .inr (.inr (.inr ⟨h3, ha⟩))
  · exact .inr (.inl ⟨c, decodeIn_of_illegal hc, wordEffect_illegal hc p r⟩)
  · rw [wordEffect_end]
    rcases finishStream_outcomes p r with ⟨-, he⟩ | ⟨-, hpol, he⟩ | ⟨h3, he⟩
    · refine .inl ⟨_, _, he, afterEnd_errCode r, ?_, fun hclean hrun => ?_⟩
      · show _ ≤ 5
        rcases length_emission_of_end r with h | h <;> omega
      · rw [afterEnd_of_clean hclean hrun]; exact regs_reset_clean
    · exact .inr (.inr (.inl ⟨hpol, he⟩))
    · exact .inr (.inr (.inr ⟨h3, he⟩))

/-! ### Code 2 is not recorded -/

/-- No input word raises `InvalidSixBitValue`, whatever the registers. -/
theorem execWith_decodeIn_errCode {p : Params} {w : InWord} {s t : State} (h : execWith p (decodeIn w) s = .next t) :
    t.regs.errCode ≠ .invalidSixBitValue := by
  rw [execWith_decodeIn] at h
  obtain ⟨hrun, -⟩ := whenRunning_cases h
  rw [whenRunning_of_running hrun] at h
  rcases wordEffect_outcomes p w s.regs with ⟨_, _, he, hcode, -⟩ | ⟨_, -, he⟩ | ⟨-, he⟩ | ⟨-, he⟩ <;>
    rw [he] at h <;> cases h
  · rw [complete_regs, hcode, hrun]
    nofun
  · nofun
  · nofun

theorem stepWith_errCode {p : Params} {s t : State} (hs : s.regs.errCode ≠ .invalidSixBitValue)
    (h : stepWith p s = .next t) : t.regs.errCode ≠ .invalidSixBitValue := by
  rcases stepWith_cases p s with ⟨-, he⟩ | ⟨-, -, he⟩ | ⟨-, -, he⟩ <;> rw [he] at h
  · cases h
    nofun
  · exact execWith_decodeIn_errCode h
  · cases h
    rwa [transfers_regs]

/-! ### The transaction-level step -/

/-- The step of R110 is the operation of the word on a state with these registers and an empty queue. -/
theorem execWith_of_txStep {p : Params} {r r' : Regs} {w : InWord} {out : List OutWord}
    (h : txStep p r w = some (r', out)) :
    ∃ t, execWith p (decodeIn w) (State.ofRegs r) = .next t ∧ t.regs = r' ∧ t.oq = out := by
  unfold txStep at h
  split at h
  · next t he => cases h; exact ⟨t, he, rfl, rfl⟩
  · cases h
  · cases h

theorem txStep_of_failed {p : Params} {r : Regs} (h : r.errCode ≠ .noError) (w : InWord) : txStep p r w = none := by
  rw [txStep, execWith_decodeIn, whenRunning_of_error (s := State.ofRegs r) h]

section
variable {p : Params} {r : Regs} (hrun : r.errCode = .noError) {w : InWord}
include hrun

theorem txStep_of_ok {r' : Regs} {out : List OutWord} (he : wordEffect p w r = .ok (r', out)) :
    txStep p r w = some (r', out) := by
  have hexec : execWith p (decodeIn w) (State.ofRegs r) = .next ((State.ofRegs r).complete r' out) := by
    rw [execWith_decodeIn, whenRunning_of_running (s := State.ofRegs r) hrun]
    exact congrArg (State.ofRegs r).settle he
  rw [txStep, hexec]; rfl

theorem txStep_of_raised {k : ErrorKind} {c : Byte} {n : Nat} (he : wordEffect p w r = .error (.raised k c n)) :
    txStep p r w = some ({ r with errCode := k, errChar := c, errIndex := n }, []) := by
  have hexec : execWith p (decodeIn w) (State.ofRegs r) = .next ((State.ofRegs r).takeError k c n) := by
    rw [execWith_decodeIn, whenRunning_of_running (s := State.ofRegs r) hrun]
    exact congrArg (State.ofRegs r).settle he
  rw [txStep, hexec]; rfl

end

/-- With `CNT` in range every input word has a step in a running state; it emits five words at most, and under
`ZERO_PAD` only an illegal character leads to the error state. -/
theorem txStep_total (p : Params) {r : Regs} (hrun : r.errCode = .noError) (hcnt : r.cnt ≠ 3#2) (w : InWord) :
    ∃ r' out, txStep p r w = some (r', out) ∧ out.length ≤ maxEmission ∧
      (p.oddPolicy = .zeroPad → r'.errCode ≠ .noError → ∃ c, decodeIn w = .pushIll c) := by
  rcases wordEffect_outcomes p w r with ⟨_, _, he, hcode, hlen, -⟩ | ⟨c, hdec, he⟩ | ⟨hpol, he⟩ | ⟨h3, -⟩
  · exact ⟨_, _, txStep_of_ok hrun he, hlen, fun _ hfailed => absurd (hcode.trans hrun) hfailed⟩
  · exact ⟨_, _, txStep_of_raised hrun he, Nat.zero_le _, fun _ _ => ⟨c, hdec⟩⟩
  · refine ⟨_, _, txStep_of_raised hrun he, Nat.zero_le _, fun hzero => ?_⟩
    cases hzero.symm.trans hpol
  · exact absurd h3 hcnt

/-- Settles O32: the invariants keep `CNT` in range. -/
theorem transactionStepIsTotal : Obligations.TransactionStepIsTotal := by
  unfold Obligations.TransactionStepIsTotal
  intro p r w hinv hrun
  exact txStep_total p hrun hinv.1 w

/-! ### No clock edge stops -/

/-- With `CNT` in range the operation of an input word goes on in a running state. -/
theorem execWith_decodeIn_goesOn (p : Params) (w : InWord) {s : State} (hrun : s.regs.errCode = .noError)
    (hcnt : s.regs.cnt ≠ 3#2) : ∃ t, execWith p (decodeIn w) s = .next t := by
  rw [execWith_decodeIn, whenRunning_of_running hrun]
  rcases wordEffect_outcomes p w s.regs with ⟨_, _, he, -⟩ | ⟨_, -, he⟩ | ⟨-, he⟩ | ⟨h3, -⟩
  · exact ⟨_, by rw [he, settle_ok]⟩
  · exact ⟨_, by rw [he, settle_raised]⟩
  · exact ⟨_, by rw [he, settle_raised]⟩
  · exact absurd h3 hcnt

/-- A word is transferred into a running block only, so with `CNT` in range each shape of the edge goes on. -/
theorem stepWith_goesOn (p : Params) {s : State} (hcnt : s.regs.cnt ≠ 3#2) : ∃ t, stepWith p s = .next t := by
  rcases stepWith_cases p s with ⟨-, he⟩ | ⟨-, htaken, he⟩ | ⟨-, -, he⟩ <;> rw [he]
  · exact ⟨_, rfl⟩
  · obtain ⟨-, hrun, -⟩ := inTransfer_ready htaken
    rw [← transfers_regs p s] at hrun hcnt
    exact execWith_decodeIn_goesOn p _ hrun hcnt
  · exact ⟨_, rfl⟩

/-- Settles O33: the edge at the defaults is `stepWith` at the defaults. -/
theorem clockEdgeNeverStops : Obligations.ClockEdgeNeverStops := by
  unfold Obligations.ClockEdgeNeverStops
  have any : ∀ (p : Params) (s : State), s.Inv p → ∃ t, stepWith p s = .next t := by
    intro p s hs
    obtain ⟨-, ⟨hcnt, -⟩, -⟩ := hs
    exact stepWith_goesOn p hcnt
  refine ⟨fun s hs => ?_, any⟩
  rw [step_eq_stepWith_default]
  exact any _ s hs

end Sys2Proof.Machine
end

section
/-! PROOFS. Runs at the transaction level (R110, R119, R123): what every step keeps holds at the end of a run, and a run
goes on from where its first words leave it. -/

namespace Sys2Proof.Machine

open Sys2Proof Sys2Proof.Reference

section
variable {p : Params} {r : Regs}

theorem txRun_cons {w : InWord} {r' : Regs} {out : List OutWord} (h : txStep p r w = some (r', out))
    (ws : List InWord) : txRun p r (w :: ws) = ((txRun p r' ws).1, out ++ (txRun p r' ws).2) := by
  rw [txRun, h]

theorem txRun_cons_of_none {w : InWord} (h : txStep p r w = none) (ws : List InWord) :
    txRun p r (w :: ws) = (r, []) := by
  rw [txRun, h]

theorem txRun_of_failed (h : r.errCode ≠ .noError) (ws : List InWord) : txRun p r ws = (r, []) := by
  cases ws with
  | nil => rfl
  | cons w ws => exact txRun_cons_of_none (txStep_of_failed h w) ws

/-- What every step keeps, a run keeps. -/
theorem txRun_keeps {P : Regs → Prop}
    (hstep : ∀ {r r' : Regs} {w : InWord} {out : List OutWord}, P r → txStep p r w = some (r', out) → P r')
    (h : P r) (ws : List InWord) : P (txRun p r ws).1 := by
  induction ws generalizing r with
  | nil => exact h
  | cons w ws ih =>
    cases hw : txStep p r w with
    | none => rwa [txRun_cons_of_none hw]
    | some next =>
      rw [txRun_cons hw]
      exact ih (hstep h hw)

end

/-- Settles O34: neither a clock edge nor a step of a run records code 2. -/
theorem invalidSixBitValueIsUnreachable : Obligations.InvalidSixBitValueIsUnreachable := by
  unfold Obligations.InvalidSixBitValueIsUnreachable
  refine ⟨fun s t hs h => stepWith_errCode hs (step_eq_stepWith_default s ▸ h), fun p s t => stepWith_errCode,
    fun p ws => ?_⟩
  refine txRun_keeps (P := fun r => r.errCode ≠ .invalidSixBitValue) (fun {r r' w out} _ h => ?_) (by decide) ws
  obtain ⟨t, hexec, rfl, -⟩ := execWith_of_txStep h
  exact execWith_decodeIn_errCode hexec

/-! ### Running registers are clean -/

/-- Unless an error is recorded, the registers are clean: of the invariants of R22, what a step keeps at any parameters. -/
def Regs.CleanWhileRunning (r : Regs) : Prop := r.errCode = .noError → r.Clean

theorem regs_reset_cleanWhileRunning : Regs.reset.CleanWhileRunning := fun _ => regs_reset_clean

section
variable {p : Params} {r r' : Regs}

theorem txStep_cleanWhileRunning {w : InWord} {out : List OutWord} (h : r.CleanWhileRunning)
    (hstep : txStep p r w = some (r', out)) : r'.CleanWhileRunning := by
  by_cases hrun : r.errCode = .noError
  · have ⟨hcnt, _⟩ := h hrun
    rcases wordEffect_outcomes p w r with ⟨_, _, he, -, -, hclean⟩ | ⟨c, -, he⟩ | ⟨-, he⟩ | ⟨h3, -⟩
    · cases hstep.symm.trans (txStep_of_ok hrun he)
      exact fun _ => hclean (h hrun) hrun
    · cases hstep.symm.trans (txStep_of_raised hrun he)
      exact nofun
    · cases hstep.symm.trans (txStep_of_raised hrun he)
      exact nofun
    · exact absurd h3 hcnt
  · cases hstep.symm.trans (txStep_of_failed hrun w)

theorem txRun_cleanWhileRunning (h : r.CleanWhileRunning) (ws : List InWord) :
    (txRun p r ws).1.CleanWhileRunning :=
  txRun_keeps txStep_cleanWhileRunning h ws

/-- A run on two lists of words is the run on the first, and on from there the run on the second. -/
theorem txRun_append (h : r.CleanWhileRunning) (ws vs : List InWord) :
    txRun p r (ws ++ vs) = ((txRun p (txRun p r ws).1 vs).1,
      (txRun p r ws).2 ++ (txRun p (txRun p r ws).1 vs).2) := by
  by_cases hrun : r.errCode = .noError
  · induction ws generalizing r with
    | nil => rfl
    | cons w ws ih =>
      obtain ⟨r', out, hstep, -⟩ := txStep_total p hrun (h hrun).1 w
      rw [List.cons_append, txRun_cons hstep, txRun_cons hstep]
      have h' := txStep_cleanWhileRunning h hstep
      by_cases hrun' : r'.errCode = .noError
      · rw [ih h' hrun', List.append_assoc]
      · simp [txRun_of_failed hrun']
  · simp [txRun_of_failed hrun]

/-! ### The last word of a stream -/

/-- A completed `END` on running registers. -/
theorem txRun_end_of_completes (hrun : r.errCode = .noError) (hclean : r.Clean)
    (h : r.nibf = false ∨ p.oddPolicy = .zeroPad) (ignored : Byte) :
    txRun p r [mkWord true ignored] = (Regs.reset, base64Text (pendingBytes r) ++ [endw]) := by
  have he : wordEffect p (mkWord true ignored) r = .ok (r.afterEnd, base64Text (pendingBytes r) ++ [endw]) := by
    rw [wordEffect_end, finishStream_eq hclean.1 h]
  rw [txRun_cons (txStep_of_ok hrun he), afterEnd_of_clean hclean hrun]
  simp [txRun]

/-- A raising `END`. -/
theorem txRun_end_of_odd_error (hrun : r.errCode = .noError) (hn : r.nibf = true) (hpol : p.oddPolicy = .error)
    (ignored : Byte) : txRun p r [mkWord true ignored] =
      ({ r with errCode := .oddHexLength, errChar := 0#8, errIndex := r.idx }, []) := by
  have he : wordEffect p (mkWord true ignored) r = .error (.raised .oddHexLength 0#8 r.idx) := by
    rw [wordEffect_end, finishStream_of_odd_error hn hpol]
  rw [txRun_cons (txStep_of_raised hrun he)]
  simp [txRun]

/-- The raise of an illegal character ends the run, whatever follows. -/
theorem txRun_illegal (hrun : r.errCode = .noError) {c : Byte} (hc : digitValue c = none) (later : List InWord) :
    txRun p r (mkWord false c :: later) =
      ({ r with errCode := .invalidHexDigit, errChar := c, errIndex := r.idx }, []) := by
  rw [txRun_cons (txStep_of_raised hrun (wordEffect_illegal hc p r)), txRun_of_failed (by simp)]
  rfl

/-- After an `END` with no error the registers are those of reset (R119). -/
theorem txRun_end_eq_reset (h : r.CleanWhileRunning) {ignored : Byte}
    (hok : (txRun p r [mkWord true ignored]).1.errCode = .noError) :
    (txRun p r [mkWord true ignored]).1 = Regs.reset := by
  by_cases hrun : r.errCode = .noError
  · rcases completes_or_raises p r with hends | ⟨hn, hpol⟩
    · rw [txRun_end_of_completes hrun (h hrun) hends]
    · rw [txRun_end_of_odd_error hrun hn hpol] at hok
      cases hok
  · rw [txRun_of_failed hrun] at hok
    exact absurd hok hrun

end

/-- Settles O45: the run up to the `END` leaves the reset registers, and the rest goes on from there. -/
theorem streamsDoNotInteract : Obligations.StreamsDoNotInteract := by
  unfold Obligations.StreamsDoNotInteract
  intro p r before ignored next _ hinv hok
  have hr : r.CleanWhileRunning := hinv.clean
  have back : (txRun p r (before ++ [mkWord true ignored])).1 = Regs.reset := by
    rw [txRun_append hr] at hok ⊢
    exact txRun_end_eq_reset (txRun_cleanWhileRunning hr before) hok
  refine ⟨back, ?_⟩
  rw [List.append_cons, txRun_append hr, back]

end Sys2Proof.Machine
end

section
/-! PROOFS. The shape of a Base64 text (R38, R121, R122): the symbols of the 6-bit values of its bytes, then the pads. -/

namespace Sys2Proof.Machine

open Sys2Proof Sys2Proof.Reference

theorem symw_injective : Function.Injective symw := fun a b h => by
  rw [← wordLow_mkWord false a, ← wordLow_mkWord false b]
  exact congrArg wordLow h

theorem symw_ne_endw (s : Byte) : symw s ≠ endw := by
  revert s; decide

theorem symbolOf_ne_padSymbol (a : SlotValue) : symbolOf a ≠ padSymbol := by
  revert a; decide

/-- The pads of the Base64 of `n` bytes (R122). -/
def padCount (n : Nat) : Nat := if n % 3 = 0 then 0 else if n % 3 = 1 then 2 else 1

/-- The pads depend on the length of the short last triplet only. -/
theorem padCount_add_three (n : Nat) : padCount (n + 3) = padCount n := by
  rw [padCount, Nat.add_mod_right]; rfl

/-- The 6-bit values of some bytes, four a triplet and no more than hold bits of the last one (R35, R38). -/
def sextetsOf : List Byte → List SlotValue
  | a :: b :: c :: rest =>
    [(a ++ b ++ c).extractLsb' 18 6, (a ++ b ++ c).extractLsb' 12 6, (a ++ b ++ c).extractLsb' 6 6,
      (a ++ b ++ c).extractLsb' 0 6] ++ sextetsOf rest
  | [a, b] => [(a ++ b ++ 0#8).extractLsb' 18 6, (a ++ b ++ 0#8).extractLsb' 12 6, (a ++ b ++ 0#8).extractLsb' 6 6]
  | [a] => [(a ++ 0#8 ++ 0#8).extractLsb' 18 6, (a ++ 0#8 ++ 0#8).extractLsb' 12 6]
  | [] => []

/-- The words of the symbols of some values. -/
def symbolWords (values : List SlotValue) : List OutWord := values.map fun a => symw (symbolOf a)

/-- The Base64 of some bytes is the symbols of their values, then the pads. -/
theorem base64Text_eq_symbolWords_append_pads (bs : List Byte) :
    base64Text bs = symbolWords (sextetsOf bs) ++ List.replicate (padCount bs.length) (symw padSymbol) := by
  induction bs using sextetsOf.induct with
  | case1 a b c rest ih =>
    have pads : padCount (rest.length + 1 + 1 + 1) = padCount rest.length := padCount_add_three _
    simp [base64Text, base64Group, sextet, sextetsOf, symbolWords, ih, pads]
  | case2 a b => rfl
  | case3 a => rfl
  | case4 => rfl

theorem endw_notMem_symbolWords (values : List SlotValue) : endw ∉ symbolWords values := by
  rw [symbolWords, List.mem_map]
  rintro ⟨a, -, ha⟩
  exact symw_ne_endw _ ha

theorem padWord_notMem_symbolWords (values : List SlotValue) : symw padSymbol ∉ symbolWords values := by
  rw [symbolWords, List.mem_map]
  rintro ⟨a, -, ha⟩
  exact symbolOf_ne_padSymbol a (symw_injective ha)

theorem endw_notMem_base64Text (bs : List Byte) : endw ∉ base64Text bs := by
  rw [base64Text_eq_symbolWords_append_pads, List.mem_append, List.mem_replicate]
  rintro (hsymbol | ⟨-, hpad⟩)
  · exact endw_notMem_symbolWords _ hsymbol
  · exact symw_ne_endw _ hpad.symm

end Sys2Proof.Machine
end

section
/-! PROOFS. The stream function (R120, R125): with the bytes a text leaves pending, its output is the Base64 of all its
bytes. -/

namespace Sys2Proof.Machine

open Sys2Proof Sys2Proof.Reference

/-! ### The Base64 owed by the registers -/

/-- What registers `r` owe to a stream of which the nibbles `ns` are still to come: the Base64 of the bytes they hold
and of those that are coming. -/
def Regs.textOn (r : Regs) (ns : List Nibble) : List OutWord :=
  base64Text (r.heldBytes ++ bytesOf (r.heldNibble ++ ns))

theorem textOn_nil (r : Regs) : r.textOn [] = base64Text (pendingBytes r) := by
  unfold Regs.textOn Regs.heldBytes Regs.heldNibble pendingBytes
  cases r.nibf <;> rfl

theorem textOn_reset (ns : List Nibble) : Regs.reset.textOn ns = base64Text (bytesOf ns) := rfl

/-- An accepted nibble moves what is owed from the nibbles to come into the registers and the emission. -/
theorem acceptNibble_textOn (p : Params) {nib : Nibble} {r r' : Regs} {out : List OutWord} (hcnt : r.cnt ≠ 3#2)
    (ha : acceptNibble p nib r = .ok (r', out)) (ns : List Nibble) :
    r.textOn (nib :: ns) = out ++ r'.textOn ns := by
  rcases acceptNibble_cases p nib hcnt with ⟨hn, he⟩ | ⟨hn, hc, he⟩ | ⟨hn, hc, he⟩ | ⟨hn, hc, -⟩
  · cases ha.symm.trans he
    simp [Regs.textOn, Regs.heldNibble, Regs.heldBytes, hn]
  · cases ha.symm.trans he
    simp [Regs.textOn, Regs.heldNibble, Regs.heldBytes, bytesOf, hn, hc]
  · cases ha.symm.trans he
    simp [Regs.textOn, Regs.heldNibble, Regs.heldBytes, bytesOf, hn, hc]
  · cases ha.symm.trans (acceptNibble_of_full p hn hc nib)
    simp [Regs.textOn, Regs.heldNibble, Regs.heldBytes, bytesOf, base64Text, hn, hc]

/-- By induction on the text, from any position: output and pending bytes make up what was owed. -/
theorem txRun_pushWords_textOn {p : Params} (cs : List Byte) (hlegal : LegalText cs) {n : Nat} {r : Regs}
    (h : r.AtPosition p n) :
    (txRun p r (pushWords cs)).2 ++ base64Text (pendingBytes (txRun p r (pushWords cs)).1) =
      r.textOn (cs.filterMap digitValue) := by
  induction cs generalizing n r with
  | nil => exact (textOn_nil r).symm
  | cons c cs ih =>
    obtain ⟨hc, hcs⟩ := List.forall_mem_cons.mp hlegal
    obtain ⟨nib, hnib⟩ := Option.isSome_iff_exists.mp hc
    obtain ⟨r', out, ha, h'⟩ := acceptNibble_atPosition h nib
    have first : txRun p r (pushWords (c :: cs)) = _ := txRun_cons (txStep_push hnib h.1 ha) (pushWords cs)
    rw [List.filterMap_cons_some hnib, acceptNibble_textOn p h.cnt_ne_three ha, ← ih hcs h', first,
      List.append_assoc]

/-! ### The run on a text from reset -/

section
variable (p : Params) {cs : List Byte} (hlegal : LegalText cs)
include hlegal

theorem txRun_reset_pushWords_textBytes :
    (txRun p Regs.reset (pushWords cs)).2 ++ base64Text (pendingBytes (txRun p Regs.reset (pushWords cs)).1) =
      base64Text (textBytes cs) :=
  txRun_pushWords_textOn cs hlegal (regs_reset_atPosition p)

/-- A text that is not ended has emitted the Base64 of its full triplets (R42, R80). -/
theorem txRun_reset_pushWords_fullTriplets :
    (txRun p Regs.reset (pushWords cs)).2 = base64Text ((textBytes cs).take (3 * (cs.length / 6))) := by
  have bytes := length_textBytes hlegal
  have complete : ((textBytes cs).take (cs.length / 2)).length = cs.length / 2 := by
    rw [List.length_take]; omega
  have triplets : min (3 * (cs.length / 2 / 3)) (cs.length / 2) = 3 * (cs.length / 6) := by omega
  rw [txRun_reset_pushWords_output p hlegal, completeGroups_eq_base64Text, complete, List.take_take, triplets]

theorem txRun_reset_pushWords_atPosition :
    (txRun p Regs.reset (pushWords cs)).1.AtPosition p cs.length :=
  positionRegistersCountTheText p cs hlegal

/-- The output of a completed stream. -/
theorem txRun_reset_stream (ignored : Byte) (h : p.oddPolicy = .zeroPad ∨ cs.length % 2 = 0) :
    txRun p Regs.reset (pushWords cs ++ [mkWord true ignored]) =
      (Regs.reset, base64Text (textBytes cs) ++ [endw]) := by
  obtain ⟨hrun, -, -, hnibf⟩ := txRun_reset_pushWords_atPosition p hlegal
  have hclean := txRun_cleanWhileRunning (p := p) regs_reset_cleanWhileRunning (pushWords cs) hrun
  have completes : (txRun p Regs.reset (pushWords cs)).1.nibf = false ∨ p.oddPolicy = .zeroPad :=
    h.symm.imp_left fun even => by simpa [even] using hnibf
  rw [txRun_append regs_reset_cleanWhileRunning, txRun_end_of_completes hrun hclean completes, ← List.append_assoc,
    txRun_reset_pushWords_textBytes p hlegal]

end

/-- Settles O41: the `END` completes the stream, or raises for the nibble an odd text leaves pending. -/
theorem streamOutputIsBase64OfTheBytes : Obligations.StreamOutputIsBase64OfTheBytes := by
  unfold Obligations.StreamOutputIsBase64OfTheBytes
  intro p cs ignored hlegal run
  refine ⟨txRun_reset_stream p hlegal ignored, fun hpol odd => ?_⟩
  obtain ⟨hrun, hidx, -, hnibf⟩ := txRun_reset_pushWords_atPosition p hlegal
  have pending : (txRun p Regs.reset (pushWords cs)).1.nibf = true := by simpa [odd] using hnibf
  have triplets : (cs.length - 1) / 6 = cs.length / 6 := by omega
  have raises : run = _ := (txRun_append regs_reset_cleanWhileRunning _ _).trans
    (by rw [txRun_end_of_odd_error hrun pending hpol, List.append_nil])
  rw [raises, triplets]
  exact ⟨txRun_reset_pushWords_fullTriplets p hlegal, rfl, rfl, hidx⟩

/-- Settles O44: the text's full triplets come out, and the illegal character ends the run. -/
theorem streamFailsAtItsFirstIllegalCharacter : Obligations.StreamFailsAtItsFirstIllegalCharacter := by
  unfold Obligations.StreamFailsAtItsFirstIllegalCharacter
  intro p cs c later hlegal hc run
  obtain ⟨hrun, hidx, -, -⟩ := txRun_reset_pushWords_atPosition p hlegal
  have raises : run = _ := (txRun_append regs_reset_cleanWhileRunning _ _).trans
    (by rw [txRun_illegal hrun hc, List.append_nil])
  rw [raises, txRun_reset_pushWords_fullTriplets p hlegal]
  exact ⟨rfl, endw_notMem_base64Text _, rfl, rfl, hidx⟩

/-- Settles O42: the symbols of the values are the body, and the groups are four words each. -/
theorem streamLengthAndPads : Obligations.StreamLengthAndPads := by
  unfold Obligations.StreamLengthAndPads
  intro p cs ignored hlegal h byteCount pads
  have bytes : (textBytes cs).length = byteCount := length_textBytes hlegal
  have shape := base64Text_eq_symbolWords_append_pads (textBytes cs)
  have len := length_base64Text (textBytes cs)
  rw [bytes] at shape len
  rw [shape, List.length_append, List.length_replicate] at len
  refine ⟨symbolWords (sextetsOf (textBytes cs)), ?_, padWord_notMem_symbolWords _, endw_notMem_symbolWords _, len⟩
  rw [txRun_reset_stream p hlegal ignored h, shape]
  rfl

end Sys2Proof.Machine
end

section
/-! PROOFS. Decoding a completed stream (R124): the bits of the symbols' values are those of the bytes, in their order. -/

namespace Sys2Proof.Machine

open Sys2Proof Sys2Proof.Reference

/-! ### Bits, most significant first -/

section
variable {m n : Nat}

theorem length_bitsMsbFirst (v : BitVec n) : (bitsMsbFirst v).length = n := by simp [bitsMsbFirst]

theorem bitsMsbFirst_append (x : BitVec m) (y : BitVec n) :
    bitsMsbFirst (x ++ y) = bitsMsbFirst x ++ bitsMsbFirst y := by
  apply List.ext_getElem
  · simp [length_bitsMsbFirst]
  · intro i _ _
    by_cases hi : i < m
    · simp [bitsMsbFirst, BitVec.getMsbD_append, hi, Nat.not_le.mpr hi]
    · simp [bitsMsbFirst, BitVec.getMsbD_append, Nat.not_lt.mp hi]

theorem bitsMsbFirst_zero : bitsMsbFirst (0#n) = List.replicate n false := by
  apply List.ext_getElem <;> simp [bitsMsbFirst]

/-- The bits of a slice are a segment of the bits of the word. -/
theorem bitsMsbFirst_extractLsb' (v : BitVec n) {lo len : Nat} (h : lo + len ≤ n) :
    bitsMsbFirst (v.extractLsb' lo len) = ((bitsMsbFirst v).drop (n - (lo + len))).take len := by
  apply List.ext_getElem
  · simp [length_bitsMsbFirst]; omega
  · intro i hi _
    rw [length_bitsMsbFirst] at hi
    have inside : n - (lo + len) + i < n := by omega
    have place : n - 1 - (n - (lo + len) + i) = lo + (len - 1 - i) := by omega
    have short : len - 1 - i < len := by omega
    simp only [bitsMsbFirst, List.getElem_take, List.getElem_drop, List.getElem_map, List.getElem_range,
      BitVec.getMsbD_eq_getLsbD, BitVec.getLsbD_extractLsb', hi, inside, place, short, decide_true, Bool.true_and]

end

/-- The leading 6-bit slices of 24 bits have the leading bits. -/
theorem flatMap_bitsMsbFirst_leading (t : BitVec 24) :
    [t.extractLsb' 18 6, t.extractLsb' 12 6].flatMap bitsMsbFirst = (bitsMsbFirst t).take 12 ∧
    [t.extractLsb' 18 6, t.extractLsb' 12 6, t.extractLsb' 6 6].flatMap bitsMsbFirst = (bitsMsbFirst t).take 18 ∧
    [t.extractLsb' 18 6, t.extractLsb' 12 6, t.extractLsb' 6 6, t.extractLsb' 0 6].flatMap bitsMsbFirst =
      bitsMsbFirst t := by
  have bits0 : bitsMsbFirst (t.extractLsb' 18 6) = (bitsMsbFirst t).take 6 := bitsMsbFirst_extractLsb' t (by decide)
  have bits1 : bitsMsbFirst (t.extractLsb' 12 6) = ((bitsMsbFirst t).drop 6).take 6 :=
    bitsMsbFirst_extractLsb' t (by decide)
  have bits2 : bitsMsbFirst (t.extractLsb' 6 6) = ((bitsMsbFirst t).drop 12).take 6 :=
    bitsMsbFirst_extractLsb' t (by decide)
  have bits3 : bitsMsbFirst (t.extractLsb' 0 6) = ((bitsMsbFirst t).drop 18).take 6 :=
    bitsMsbFirst_extractLsb' t (by decide)
  have two := List.take_add (l := bitsMsbFirst t) (i := 6) (j := 6)
  have three := List.take_add (l := bitsMsbFirst t) (i := 12) (j := 6)
  have four := List.take_add (l := bitsMsbFirst t) (i := 18) (j := 6)
  rw [List.take_of_length_le (length_bitsMsbFirst t).le] at four
  refine ⟨?_, ?_, ?_⟩
  · rw [two]; simp [bits0, bits1]
  · rw [three, two]; simp [bits0, bits1, bits2]
  · rw [four, three, two]; simp [bits0, bits1, bits2, bits3]

theorem bitsMsbFirst_threeBytes (a b c : Byte) :
    bitsMsbFirst (a ++ b ++ c : BitVec 24) = bitsMsbFirst a ++ (bitsMsbFirst b ++ bitsMsbFirst c) := by
  rw [← List.append_assoc, ← bitsMsbFirst_append, ← bitsMsbFirst_append]

/-- The values of some bytes have the bits of the bytes, and two zero bits for each pad. -/
theorem flatMap_bitsMsbFirst_sextetsOf (bs : List Byte) :
    (sextetsOf bs).flatMap bitsMsbFirst =
      bs.flatMap bitsMsbFirst ++ List.replicate (2 * padCount bs.length) false := by
  induction bs using sextetsOf.induct with
  | case1 a b c rest ih =>
    have pads : padCount (rest.length + 1 + 1 + 1) = padCount rest.length := padCount_add_three _
    obtain ⟨-, -, all⟩ := flatMap_bitsMsbFirst_leading (a ++ b ++ c)
    rw [sextetsOf, List.flatMap_append, all, ih, bitsMsbFirst_threeBytes]
    simp [pads]
  | case2 a b =>
    obtain ⟨-, leading, -⟩ := flatMap_bitsMsbFirst_leading (a ++ b ++ 0#8)
    rw [sextetsOf, leading, bitsMsbFirst_threeBytes, bitsMsbFirst_zero]
    simp [List.take_append, List.take_of_length_le, length_bitsMsbFirst, padCount]
  | case3 a =>
    obtain ⟨leading, -, -⟩ := flatMap_bitsMsbFirst_leading (a ++ 0#8 ++ 0#8)
    rw [sextetsOf, leading, bitsMsbFirst_threeBytes, bitsMsbFirst_zero]
    simp [List.take_append, length_bitsMsbFirst, padCount]
  | case4 => rfl

/-! ### Decoding -/

theorem decodedBits_append (out1 out2 : List OutWord) :
    decodedBits (out1 ++ out2) = decodedBits out1 ++ decodedBits out2 := by
  simp [decodedBits]

theorem decodedBits_symbolWords (values : List SlotValue) :
    decodedBits (symbolWords values) = values.flatMap bitsMsbFirst := by
  simp [decodedBits, symbolWords, symw, List.filterMap_map, valueOf_symbolOf]

/-- The pads and the END marker stand for no value. -/
theorem decodedBits_pads_endw (n : Nat) : decodedBits (List.replicate n (symw padSymbol) ++ [endw]) = [] := by
  have pad : valueOf (wordLow (symw padSymbol)) = none := by decide
  have marker : valueOf (wordLow endw) = none := by decide
  simp [decodedBits, List.filterMap_append, pad, marker]

/-- Settles O43: two zero bits for each of at most two pads. -/
theorem streamDecodesBackToItsBytes : Obligations.StreamDecodesBackToItsBytes := by
  unfold Obligations.StreamDecodesBackToItsBytes
  intro p cs ignored hlegal h
  refine ⟨2 * padCount (textBytes cs).length, ?_, ?_⟩
  · unfold padCount; split_ifs <;> decide
  · rw [txRun_reset_stream p hlegal ignored h, base64Text_eq_symbolWords_append_pads, List.append_assoc,
      decodedBits_append, decodedBits_pads_endw, List.append_nil, decodedBits_symbolWords,
      flatMap_bitsMsbFirst_sextetsOf]

end Sys2Proof.Machine
end

section
/-! PROOFS. A clock edge in full (R131 to R135): the pins as propositions, the state after the transfers written out, and
what an edge without reset leaves, which is the transaction-level step of the word it takes, if it takes one. -/

namespace Sys2Proof.Machine

open Sys2Proof

/-! ### The handshakes -/

section
variable {p : Params} {s : State} {rst : Bool}

theorem inReady_iff : s.inReady p rst = true ↔
    rst = false ∧ s.regs.errCode = .noError ∧ s.oq.length + maxEmission ≤ p.oqDepth := by
  simp [State.inReady, running_iff, and_assoc]

theorem outValid_iff : s.outValid rst = true ↔ rst = false ∧ s.oq ≠ [] := by
  simp [State.outValid, List.length_pos_iff]

theorem outTransfer_iff : s.outTransfer = true ↔ s.pins.rst = false ∧ s.oq ≠ [] ∧ s.pins.outReady = true := by
  simp [State.outTransfer, outValid_iff, and_assoc]

theorem outTransfer_of_not_outReady (h : s.pins.outReady = false) : s.outTransfer = false := by
  simp [State.outTransfer, h]

theorem inTransfer_of_full (h : p.oqDepth < s.oq.length + maxEmission) : s.inTransfer p = false := by
  simp [State.inTransfer, State.inReady, Nat.not_le.mpr h]

/-! ### The transfers -/

/-- Only the output transfer is made. -/
theorem transfers_of_pop (hout : s.outTransfer = true) (hin : s.inTransfer p = false) :
    s.transfers p = s.popOutput.consumePins := by
  simp [State.transfers, hout, hin]

variable {pins : Pins} {rest : List Pins} (hstim : s.bench.stim = pins :: rest)
include hstim

theorem pins_of_stim_cons : s.pins = pins := by
  rw [State.pins, hstim]; rfl

/-- Taking from an empty queue takes nothing, so at an edge without reset `out_ready` alone decides what the output
transfer leaves queued and delivered. -/
theorem transfers_of_stim_cons (hrst : pins.rst = false) : s.transfers p =
    { s with
      oq := if pins.outReady then s.oq.tail else s.oq
      bench := {
        stim := rest
        accepted := if s.inTransfer p then s.bench.accepted ++ [pins.inWord] else s.bench.accepted
        delivered := if pins.outReady then s.bench.delivered ++ s.oq.take 1 else s.bench.delivered } } := by
  have hpins := pins_of_stim_cons hstim
  have hpop : s.outTransfer = true ↔ s.oq ≠ [] ∧ pins.outReady = true := by
    simp [outTransfer_iff, hpins, hrst]
  have queued : (s.transfers p).oq = if pins.outReady then s.oq.tail else s.oq := by
    rw [transfers_oq]
    cases hq : s.oq <;> simp [hpop, hq]
  have received : (s.transfers p).bench.delivered =
      if pins.outReady then s.bench.delivered ++ s.oq.take 1 else s.bench.delivered := by
    rw [transfers_delivered]
    cases hq : s.oq <;> simp [hpop, hq, State.outWord]
  calc s.transfers p
    _ = ⟨(s.transfers p).regs, (s.transfers p).oq, (s.transfers p).bench.stim, (s.transfers p).bench.accepted,
          (s.transfers p).bench.delivered⟩ := rfl
    _ = _ := by rw [transfers_regs, queued, transfers_stim, transfers_accepted, received, hpins, hstim]; rfl

end

/-! ### The state after an edge -/

section
variable {p : Params} {s t : State}

/-- A reset edge leaves nothing but the pins to come (R170). -/
theorem stepWith_of_rst (h : s.pins.rst = true) : stepWith p s = .next
    { regs := Regs.reset, oq := [], bench := { stim := s.bench.stim.tail, accepted := [], delivered := [] } } := by
  rcases stepWith_cases p s with ⟨-, he⟩ | ⟨hr, -⟩ | ⟨hr, -⟩
  · exact he
  · cases h.symm.trans hr
  · cases h.symm.trans hr

/-- The operation of an input word does to a state what the transaction-level step does to its registers. -/
theorem txStep_of_execWith {w : InWord} (h : execWith p (decodeIn w) s = .next t) :
    ∃ out, txStep p s.regs w = some (t.regs, out) ∧ out.length ≤ maxEmission ∧ t.oq = s.oq ++ out ∧
      t.bench = s.bench := by
  rw [execWith_decodeIn] at h
  obtain ⟨hrun, ⟨r, out, hok, rfl⟩ | ⟨k, c, n, herr, rfl⟩⟩ := whenRunning_cases h
  · refine ⟨out, txStep_of_ok hrun hok, ?_, rfl, rfl⟩
    rcases wordEffect_outcomes p w s.regs with ⟨_, _, he, -, hlen, -⟩ | ⟨_, -, he⟩ | ⟨-, he⟩ | ⟨-, he⟩ <;>
      cases hok.symm.trans he
    exact hlen
  · exact ⟨[], txStep_of_raised hrun herr, Nat.zero_le _, (List.append_nil _).symm, rfl⟩

/-- An edge without reset appends to the queue that the transfers left: nothing, with the registers as they were, or the
emission of the transaction-level step of the word it took. The host's side is that of the transfers. -/
theorem stepWith_of_not_rst (hrst : s.pins.rst = false) (h : stepWith p s = .next t) :
    ∃ out, t.oq = (s.transfers p).oq ++ out ∧ t.bench = (s.transfers p).bench ∧
      ((s.inTransfer p = false ∧ out = [] ∧ t.regs = s.regs) ∨
        (s.inTransfer p = true ∧ out.length ≤ maxEmission ∧
          txStep p s.regs s.pins.inWord = some (t.regs, out))) := by
  rcases stepWith_cases p s with ⟨hr, -⟩ | ⟨-, hin, he⟩ | ⟨-, hin, he⟩
  · cases hrst.symm.trans hr
  · obtain ⟨out, hstep, hlen, hoq, hbench⟩ := txStep_of_execWith (he ▸ h)
    rw [transfers_regs] at hstep
    exact ⟨out, hoq, hbench, .inr ⟨hin, hlen, hstep⟩⟩
  · cases he.symm.trans h
    exact ⟨[], (List.append_nil _).symm, rfl, .inl ⟨hin, rfl, transfers_regs p s⟩⟩

end

/-! ### The statements about a single edge -/

/-- The codes of R150 are distinct. -/
theorem code_eq_iff {a b : ErrorKind} : a.code = b.code ↔ a = b := by
  cases a <;> cases b <;> decide

theorem errValid_iff {r : Regs} : r.errValid = true ↔ r.errCode ≠ .noError := by
  rw [Regs.errValid, bne_iff_ne]
  exact not_congr (code_eq_iff (b := .noError))

/-- The three fields of the error record, `ERR_INDEX` on its `IDX_W` wires (R57). -/
theorem errRecord_fields (p : Params) (r : Regs) :
    (r.errRecord p).extractLsb' (8 + p.idxW) 2 = r.errCode.code ∧
    (r.errRecord p).extractLsb' p.idxW 8 = r.errChar ∧
    ((r.errRecord p).extractLsb' 0 p.idxW).toNat = r.errIndex % 2 ^ p.idxW := by
  unfold Regs.errRecord
  refine ⟨?_, ?_, ?_⟩
  · rw [BitVec.extractLsb'_append_eq_of_le (Nat.le_add_left _ _), Nat.add_sub_cancel]
    exact BitVec.extractLsb'_append_eq_left
  · rw [BitVec.extractLsb'_append_eq_of_le le_rfl, Nat.sub_self]
    exact BitVec.extractLsb'_append_eq_right
  · rw [BitVec.extractLsb'_append_eq_right, BitVec.toNat_ofNat]

/-- Settles O29: the wires of R131, and the record as the concatenation of R57. -/
theorem outputPinsFollowTheState : Obligations.OutputPinsFollowTheState := by
  unfold Obligations.OutputPinsFollowTheState
  intro p s rst o
  have word : mkWord o.outEnd o.outSym = s.outWord := mkWord_of_wordTag rfl
  refine ⟨inReady_iff, outValid_iff, fun w rest hq => ?_, fun hq => ?_, errValid_iff, rfl,
    code_eq_iff (b := .noError), code_eq_iff (b := .invalidHexDigit), code_eq_iff (b := .invalidSixBitValue),
    code_eq_iff (b := .oddHexLength), rfl, rfl, errRecord_fields p s.regs⟩
  · rw [word, State.outWord, hq]; rfl
  · rw [word, State.outWord, hq]; rfl

/-- Settles O27: `in_ready` decides which shape the edge has. -/
theorem stepRunsTheDecodedInstruction : Obligations.StepRunsTheDecodedInstruction := by
  unfold Obligations.StepRunsTheDecodedInstruction
  intro s pins rest hstim hrst w q got taken notTaken
  have hpins := pins_of_stim_cons hstim
  have htransfers := fun p => transfers_of_stim_cons (p := p) hstim hrst
  have takes : ∀ p, pins.inValid = true → s.inReady p false = true →
      stepWith p s = execWith p (decodeIn w) taken := by
    intro p hvalid hready
    have hin : s.inTransfer p = true := by rw [State.inTransfer, hpins, hrst, hvalid, hready]; rfl
    rw [stepWith, clockEdge, operation_of_transfer hin (hpins ▸ hrst), htransfers, hin, hpins]
    rfl
  have leaves : ∀ p, pins.inValid = false ∨ s.inReady p false = false → stepWith p s = .next notTaken := by
    intro p hnot
    have hin : s.inTransfer p = false := by
      rw [State.inTransfer, hpins, hrst, Bool.and_eq_false_iff]; exact hnot
    rw [stepWith, clockEdge, operation_of_none hin (hpins ▸ hrst), htransfers, hin]
    rfl
  refine ⟨fun hvalid i hdec => ?_, fun hnot => ?_, leaves⟩
  · cases hdec
    refine ⟨fun hready => ?_, fun p => takes p hvalid⟩
    rw [step_eq_stepWith_default, exec_eq_execWith_default]
    exact takes _ hvalid hready
  · rw [step_eq_stepWith_default]
    exact leaves _ hnot

/-- Settles O36: an input transfer waits until the longest emission has room. -/
theorem queueNeverOverflowsOrUnderflows : Obligations.QueueNeverOverflowsOrUnderflows := by
  unfold Obligations.QueueNeverOverflowsOrUnderflows
  intro p s
  refine ⟨fun t hlen h => ?_, fun hout => ?_, fun hin => ?_⟩
  · cases hrst : s.pins.rst with
    | true =>
      cases (stepWith_of_rst hrst).symm.trans h
      exact Nat.zero_le _
    | false =>
      have kept := (transfers_oq_sublist p s).length_le
      obtain ⟨out, hoq, -, ⟨-, rfl, -⟩ | ⟨hin, hout, -⟩⟩ := stepWith_of_not_rst hrst h
      · rw [hoq, List.append_nil]
        exact kept.trans hlen
      · obtain ⟨-, -, hroom⟩ := inTransfer_ready hin
        rw [hoq, List.length_append]
        omega
  · obtain ⟨-, hne, -⟩ := outTransfer_iff.mp hout
    exact List.length_pos_iff.mpr hne
  · have ⟨_, _, hroom⟩ := inTransfer_ready hin
    rw [maxEmission] at hroom
    exact ⟨fun h5 => List.length_eq_zero_iff.mp (by omega), fun h8 => by omega⟩

/-- Settles O37: the head of the queue is not touched by what is appended behind it. -/
theorem offeredWordIsHeldUntilTaken : Obligations.OfferedWordIsHeldUntilTaken := by
  unfold Obligations.OfferedWordIsHeldUntilTaken
  intro p s t hrst hvalid hready h
  have hout := outTransfer_of_not_outReady hready
  obtain ⟨out, hoq, hbench, -⟩ := stepWith_of_not_rst hrst h
  rw [transfers_oq, hout] at hoq
  obtain ⟨-, hne⟩ := outValid_iff.mp hvalid
  obtain ⟨w, rest, hq⟩ := List.exists_cons_of_ne_nil hne
  refine ⟨outValid_iff.mpr ⟨rfl, ?_⟩, ?_, ?_⟩
  · simp [hoq, hq]
  · simp [State.outWord, hoq, hq]
  · rw [hbench, transfers_delivered, hout]; rfl

end Sys2Proof.Machine
end

section
/-! PROOFS. The two levels (R137, R138): runs of clock edges against runs of the transaction level. -/

namespace Sys2Proof.Machine

open Sys2Proof

section
variable {p : Params} {s t : State}

/-- The commuting diagram of one edge without reset: the words it took are put before any words to come, and what it
emitted before their output. -/
theorem stepWith_refines_txRun (hrst : s.pins.rst = false) (h : stepWith p s = .next t) :
    ∃ ws out, t.bench.accepted = s.bench.accepted ++ ws ∧
      t.bench.delivered ++ t.oq = s.bench.delivered ++ s.oq ++ out ∧
      ∀ later, txRun p s.regs (ws ++ later) = ((txRun p t.regs later).1, out ++ (txRun p t.regs later).2) := by
  obtain ⟨out, hoq, hbench, hword⟩ := stepWith_of_not_rst hrst h
  have conserved : t.bench.delivered ++ t.oq = s.bench.delivered ++ s.oq ++ out := by
    rw [hbench, hoq, ← List.append_assoc, transfers_conserve]
  have accepted := transfers_accepted p s
  rw [← hbench] at accepted
  rcases hword with ⟨hin, rfl, hregs⟩ | ⟨hin, -, hstep⟩
  · exact ⟨[], [], by simp [accepted, hin], conserved, fun later => by rw [hregs]; rfl⟩
  · exact ⟨[s.pins.inWord], out, by simp [accepted, hin], conserved, txRun_cons hstep⟩

/-! ### Runs of edges -/

theorem runEdges_succ_eq_some {n : Nat} :
    runEdges p (n + 1) s = some t ↔ ∃ u, stepWith p s = .next u ∧ runEdges p n u = some t := by
  rw [runEdges]
  cases stepWith p s <;> simp

theorem pins_rst_of_noResetAhead (h : s.NoResetAhead) : s.pins.rst = false := by
  rw [State.pins]
  cases hstim : s.bench.stim with
  | nil => rfl
  | cons pins rest => exact h pins (by simp [hstim])

/-- An edge without reset uses up its pins and leaves those to come. -/
theorem stepWith_noResetAhead (hahead : s.NoResetAhead) (h : stepWith p s = .next t) : t.NoResetAhead := by
  obtain ⟨-, -, hbench, -⟩ := stepWith_of_not_rst (pins_rst_of_noResetAhead hahead) h
  rw [State.NoResetAhead, hbench, transfers_stim]
  exact fun pins hmem => hahead pins (List.mem_of_mem_tail hmem)

end

/-- Settles O38, by induction on the edges: the diagram of the first before those of the rest. -/
theorem portLevelRefinesTransactionLevel : Obligations.PortLevelRefinesTransactionLevel := by
  unfold Obligations.PortLevelRefinesTransactionLevel
  intro p n
  induction n with
  | zero =>
    rintro s _ - ⟨⟩
    exact ⟨[], by simp [txRun]⟩
  | succ n ih =>
    intro s t hahead h
    obtain ⟨u, hstep, hrun⟩ := runEdges_succ_eq_some.mp h
    obtain ⟨ws, out, haccepted, hout, hfirst⟩ := stepWith_refines_txRun (pins_rst_of_noResetAhead hahead) hstep
    obtain ⟨ws', haccepted', hregs, hout'⟩ := ih u t (stepWith_noResetAhead hahead hstep) hrun
    refine ⟨ws ++ ws', ?_, ?_, ?_⟩
    · rw [haccepted', haccepted, List.append_assoc]
    · rw [hfirst, hregs]
    · rw [hfirst, hout', hout, List.append_assoc _ out]

/-- An edge keeps the logs in agreement: a reset edge begins a run on no word, and any other edge goes on with the run. -/
theorem stepWith_logsAgree {p : Params} {s t : State} (hs : s.LogsAgree p) (h : stepWith p s = .next t) :
    t.LogsAgree p := by
  cases hrst : s.pins.rst with
  | true =>
    cases (stepWith_of_rst hrst).symm.trans h
    exact ⟨rfl, rfl⟩
  | false =>
    obtain ⟨hregs, hlogs⟩ := hs
    obtain ⟨ws, out, haccepted, hout, hrun⟩ := stepWith_refines_txRun hrst h
    have word : txRun p s.regs ws = (t.regs, out) := by simpa [txRun] using hrun []
    rw [State.LogsAgree, haccepted, txRun_append regs_reset_cleanWhileRunning, ← hregs, word, hout, hlogs]
    exact ⟨rfl, rfl⟩

/-- Settles O51: the edge at the defaults is `stepWith` at the defaults. -/
theorem logsTellTheRunSinceTheLastReset : Obligations.LogsTellTheRunSinceTheLastReset := by
  unfold Obligations.LogsTellTheRunSinceTheLastReset
  exact ⟨fun s t hs h => stepWith_logsAgree hs (step_eq_stepWith_default s ▸ h), fun p s t => stepWith_logsAgree⟩

/-! ### Draining the queue -/

/-- An edge at which the host takes a word of a queue too full for an input transfer. -/
theorem stepWith_of_full {p : Params} {s : State} (hrst : s.pins.rst = false) (hready : s.pins.outReady = true)
    (hne : s.oq ≠ []) (hfull : p.oqDepth < s.oq.length + maxEmission) :
    stepWith p s = .next s.popOutput.consumePins := by
  have hin := inTransfer_of_full hfull
  rw [stepWith, clockEdge, operation_of_none hin hrst, transfers_of_pop (outTransfer_iff.mpr ⟨hrst, hne, hready⟩) hin]

/-- As long as the queue is too full, a host that keeps accepting takes a word at every edge, and nothing else happens. -/
theorem runEdges_drain {p : Params} {n : Nat} {s : State} (hfull : n ≤ s.oq.length - (p.oqDepth - 5))
    (hlen : n ≤ s.bench.stim.length) (hpins : ∀ pins ∈ s.bench.stim.take n, pins.rst = false ∧ pins.outReady = true) :
    ∃ t, runEdges p n s = some t ∧ t.regs = s.regs ∧ t.oq = s.oq.drop n ∧ t.bench.accepted = s.bench.accepted ∧
      t.bench.delivered = s.bench.delivered ++ s.oq.take n := by
  induction n generalizing s with
  | zero => exact ⟨s, rfl, rfl, rfl, rfl, by simp⟩
  | succ n ih =>
    obtain ⟨pins, rest, hstim⟩ := List.exists_cons_of_length_pos (Nat.lt_of_lt_of_le n.succ_pos hlen)
    obtain ⟨w, queued, hq⟩ : ∃ w queued, s.oq = w :: queued := List.exists_cons_of_length_pos (by omega)
    rw [hstim, List.take_succ_cons, List.forall_mem_cons] at hpins
    obtain ⟨⟨hrst, hready⟩, hpins⟩ := hpins
    rw [← pins_of_stim_cons hstim] at hrst hready
    have hstep : stepWith p s = .next s.popOutput.consumePins :=
      stepWith_of_full hrst hready (by simp [hq]) (show _ < _ + 5 by omega)
    obtain ⟨t, hrun, hregs, hoq, haccepted, hdelivered⟩ := ih (s := s.popOutput.consumePins)
      (by simp; omega) (by simp; omega) (by simpa [hstim] using hpins)
    refine ⟨t, runEdges_succ_eq_some.mpr ⟨_, hstep, hrun⟩, hregs, ?_, haccepted, ?_⟩
    · simp [hoq, hq]
    · simp [hdelivered, hq, State.outWord]

/-- Settles O39: after that many edges the queue has come down to `OQ_DEPTH - 5` words. -/
theorem readyReturnsOnceTheQueueDrains : Obligations.ReadyReturnsOnceTheQueueDrains := by
  unfold Obligations.ReadyReturnsOnceTheQueueDrains
  intro p s hlegal hrun k hlen hpins
  obtain ⟨-, hdepth⟩ := hlegal
  obtain ⟨t, hedges, hregs, hoq, haccepted, hdelivered⟩ := runEdges_drain le_rfl hlen hpins
  refine ⟨t, hedges, inReady_iff.mpr ⟨rfl, hregs ▸ hrun, ?_⟩, hregs, haccepted, hdelivered⟩
  rw [hoq, List.length_drop]
  show _ + 5 ≤ _
  omega

end Sys2Proof.Machine
end

section
/-! PROOFS. Errors (R154 to R156): the state a raise leaves, and what is left to the block once an error is recorded. -/

namespace Sys2Proof.Machine

open Sys2Proof

/-! ### A raise is precise -/

/-- An effect that reports the index `idx` if it raises (R8). -/
def Effect.RaisesAt (idx : Nat) (e : Effect) : Prop := ∀ k c n, e = .error (.raised k c n) → n = idx

theorem acceptNibble_raisesAt (p : Params) (nib : Nibble) (r : Regs) : (acceptNibble p nib r).RaisesAt r.idx := by
  intro k c n herr
  rcases acceptNibble_outcomes p nib r with ⟨_, _, ha, -⟩ | ⟨-, ha⟩ <;> cases herr.symm.trans ha

theorem finishStream_raisesAt (p : Params) (r : Regs) : (finishStream p r).RaisesAt r.idx := by
  intro k c n herr
  rcases finishStream_outcomes p r with ⟨-, he⟩ | ⟨-, -, he⟩ | ⟨-, he⟩ <;> cases herr.symm.trans he
  rfl

theorem encodeSlot_raisesAt (slot : Slot) (r : Regs) : (encodeSlot slot r).RaisesAt r.idx := by
  intro k c n herr
  unfold encodeSlot at herr
  rcases sym_cases slot r.idx with ⟨-, h⟩ | ⟨v, -, -, h⟩ | ⟨v, -, -, h⟩ <;> rw [h] at herr <;> cases herr
  rfl

/-- Every operation but `RST` is guarded, leaves the error code alone if it completes, and reports `IDX` if it raises. -/
theorem execWith_keepsErrCode_raisesAt (p : Params) {i : Instr} (hi : i ≠ .rst) (s : State) :
    ∃ e : Effect, execWith p i s = s.whenRunning e ∧ e.KeepsErrCode s.regs ∧ e.RaisesAt s.regs.idx := by
  cases i with
  | pushDec c => exact ⟨_, rfl, acceptNibble_keepsErrCode p _ _, acceptNibble_raisesAt p _ _⟩
  | pushUC c => exact ⟨_, rfl, acceptNibble_keepsErrCode p _ _, acceptNibble_raisesAt p _ _⟩
  | pushLC c => exact ⟨_, rfl, acceptNibble_keepsErrCode p _ _, acceptNibble_raisesAt p _ _⟩
  | pushIll c => exact ⟨_, rfl, nofun, by rintro k c' n ⟨⟩; rfl⟩
  | endStream ignored => exact ⟨_, rfl, finishStream_keepsErrCode p _, finishStream_raisesAt p _⟩
  | rst => exact absurd rfl hi
  | symV v => exact ⟨_, rfl, encodeSlot_keepsErrCode _ _, encodeSlot_raisesAt _ _⟩
  | symPad ignored => exact ⟨_, rfl, encodeSlot_keepsErrCode _ _, encodeSlot_raisesAt _ _⟩
  | symIll v => exact ⟨_, rfl, encodeSlot_keepsErrCode _ _, encodeSlot_raisesAt _ _⟩

/-- Settles O23: `RST` records no error, and any other operation records one by a raise only. -/
theorem errorsArePrecise : Obligations.ErrorsArePrecise := by
  unfold Obligations.ErrorsArePrecise
  intro p i s t hrun h hfailed
  by_cases hi : i = .rst
  · subst hi
    cases h
    exact absurd rfl hfailed
  · obtain ⟨e, hexec, hkeeps, hindex⟩ := execWith_keepsErrCode_raisesAt p hi s
    obtain ⟨-, ⟨r, out, hok, rfl⟩ | ⟨k, c, n, herr, rfl⟩⟩ := whenRunning_cases (hexec ▸ h)
    · exact absurd ((hkeeps r out hok).trans hrun) hfailed
    · cases hindex k c n herr
      rfl

/-! ### The error state -/

section
variable {p : Params} {s : State}

/-- At an edge without reset `out_ready` alone decides whether the queue loses its head: an empty one has none. -/
theorem transfers_oq_of_outReady (hrst : s.pins.rst = false) (hready : s.pins.outReady = true) :
    (s.transfers p).oq = s.oq.tail := by
  rw [transfers_oq]
  cases hout : s.outTransfer with
  | true => rfl
  | false =>
    have hempty : s.oq = [] := by
      by_contra hne
      exact Bool.false_ne_true (hout.symm.trans (outTransfer_iff.mpr ⟨hrst, hne, hready⟩))
    rw [hempty]; rfl

theorem not_succeeded_of_failed (hfailed : s.failed = true) : ¬ s.Succeeded := by
  rintro ⟨-, ⟨-, -, hok⟩, -⟩
  cases hfailed.symm.trans hok

variable (herr : s.regs.errCode ≠ .noError)
include herr

theorem inReady_of_failed (rst : Bool) : s.inReady p rst = false := by
  rw [Bool.eq_false_iff]
  intro hready
  obtain ⟨-, hrun, -⟩ := inReady_iff.mp hready
  exact herr hrun

theorem inTransfer_of_failed : s.inTransfer p = false := by
  rw [State.inTransfer, inReady_of_failed herr, Bool.and_false]

/-- Without a reset nothing is left of an edge but the output transfer. -/
theorem stepWith_of_failed (hrst : s.pins.rst = false) : stepWith p s = .next (s.transfers p) := by
  rw [stepWith, clockEdge, operation_of_none (inTransfer_of_failed herr) hrst]

end

/-- Settles O35: with no input word to run, an edge is a reset or an output transfer at most. -/
theorem errorStateIsAbsorbing : Obligations.ErrorStateIsAbsorbing := by
  unfold Obligations.ErrorStateIsAbsorbing
  intro p s herr
  have hvalid : s.regs.errValid = true := errValid_iff.mpr herr
  refine ⟨inReady_of_failed herr _, txStep_of_failed herr, hvalid, not_succeeded_of_failed hvalid, ?_⟩
  cases hrst : s.pins.rst with
  | true => exact ⟨_, stepWith_of_rst hrst, nofun, fun _ => ⟨rfl, rfl⟩⟩
  | false =>
    refine ⟨_, stepWith_of_failed herr hrst, fun _ => ⟨transfers_regs p s, ?_, transfers_conserve p s,
      transfers_oq_of_outReady hrst, fun hready => ?_⟩, nofun⟩
    · rw [transfers_accepted, inTransfer_of_failed herr]; rfl
    · rw [transfers_oq, outTransfer_of_not_outReady hready]; rfl

end Sys2Proof.Machine
end

section
/-! PROOFS. Reset and the end of a stream (R170, R177, R181): what a reset edge leaves, the `0` an odd text is padded
with, and the registers and the markers after an `END`. -/

namespace Sys2Proof.Machine

open Sys2Proof Sys2Proof.Reference

/-! ### A reset edge -/

/-- Settles O28: with `rst == 1` both handshakes are down, and the edge leaves nothing but the pins to come. -/
theorem resetEdgeHasPriority : Obligations.ResetEdgeHasPriority := by
  unfold Obligations.ResetEdgeHasPriority
  intro s pins rest hstim hrst t
  have edge : ∀ p, stepWith p s = .next t := by
    intro p
    rw [stepWith_of_rst (by rwa [pins_of_stim_cons hstim]), hstim]
    rfl
  rw [hrst]
  exact ⟨rfl, (step_eq_stepWith_default s).trans (edge _), fun p =>
    ⟨rfl, edge p, fun ⟨_, hdepth⟩ => inReady_iff.mpr ⟨rfl, rfl, hdepth⟩⟩⟩

/-! ### An odd text -/

/-- A missing last nibble is read as 0, so writing it changes no byte. -/
theorem bytesOf_append_zero {ns : List Nibble} (odd : ns.length % 2 = 1) : bytesOf (ns ++ [0#4]) = bytesOf ns := by
  induction ns using bytesOf.induct with
  | case1 hi lo rest ih => exact congrArg (_ :: ·) (ih (by simpa [Nat.add_assoc] using odd))
  | case2 hi => rfl
  | case3 => cases odd

theorem textBytes_append_zero {cs : List Byte} (hlegal : LegalText cs) (odd : cs.length % 2 = 1) :
    textBytes (cs ++ [0x30#8]) = textBytes cs := by
  rw [textBytes, List.filterMap_append]
  exact bytesOf_append_zero (by rwa [length_filterMap_digitValue hlegal])

theorem legalText_append_zero {cs : List Byte} (hlegal : LegalText cs) : LegalText (cs ++ [0x30#8]) :=
  List.forall_mem_append.mpr ⟨hlegal, by decide⟩

/-- Settles O48: both streams complete, and the two texts have the same bytes. -/
theorem oddTextIsPaddedSilently : Obligations.OddTextIsPaddedSilently := by
  unfold Obligations.OddTextIsPaddedSilently
  intro p cs ignored hlegal hpol odd
  rw [txRun_reset_stream p hlegal ignored (.inl hpol),
    txRun_reset_stream p (legalText_append_zero hlegal) ignored (.inl hpol), textBytes_append_zero hlegal odd]

/-! ### The registers after an `END` -/

/-- A log whose last word has tag 1 ends in an `END`. -/
theorem eq_append_end_of_getLast? {ws : List InWord} (h : ws.getLast?.map wordTag = some true) :
    ∃ before ignored, ws = before ++ [mkWord true ignored] := by
  obtain ⟨w, hlast, htag⟩ := Option.map_eq_some_iff.mp h
  obtain ⟨before, rfl⟩ := List.getLast?_eq_some_iff.mp hlast
  exact ⟨before, wordLow w, by rw [mkWord_of_wordTag htag]⟩

/-- At the transaction level an `END` that leaves no error leaves the registers of reset. -/
theorem txStep_end_eq_reset {p : Params} {r r' : Regs} (h : r.CleanWhileRunning) {ignored : Byte} {out : List OutWord}
    (hstep : txStep p r (mkWord true ignored) = some (r', out)) (hok : r'.errCode = .noError) : r' = Regs.reset := by
  have run : (txRun p r [mkWord true ignored]).1 = r' := congrArg Prod.fst (txRun_cons hstep [])
  rw [← run] at hok ⊢
  exact txRun_end_eq_reset h hok

/-- Settles O40: an edge that takes no word changes neither the registers nor the log, and one that takes an `END`
without an error leaves the registers of reset. -/
theorem acceptedEndMeansResetRegisters : Obligations.AcceptedEndMeansResetRegisters := by
  unfold Obligations.AcceptedEndMeansResetRegisters
  intro p s t hinv back hback h hrun hlast
  obtain ⟨-, hregs, -⟩ := hinv
  cases hrst : s.pins.rst with
  | true =>
    cases (stepWith_of_rst hrst).symm.trans h
    rfl
  | false =>
    obtain ⟨out, -, hbench, ⟨hin, -, hsame⟩ | ⟨hin, -, hstep⟩⟩ := stepWith_of_not_rst hrst h
    · rw [hbench, transfers_accepted, hin] at hlast
      rw [hsame] at hrun ⊢
      exact hback hrun hlast
    · obtain ⟨before, ignored, hend⟩ := eq_append_end_of_getLast? hlast
      rw [hbench, transfers_accepted, hin] at hend
      obtain ⟨-, hword⟩ := List.append_inj' hend rfl
      rw [(List.cons.inj hword).1] at hstep
      exact txStep_end_eq_reset hregs.clean hstep hrun

/-! ### The markers of a run -/

theorem endw_notMem_of_acceptNibble {p : Params} {nib : Nibble} {r r' : Regs} {out : List OutWord}
    (hcnt : r.cnt ≠ 3#2) (ha : acceptNibble p nib r = .ok (r', out)) : endw ∉ out := fun hmem =>
  endw_notMem_base64Text _ (acceptNibble_textOn p hcnt ha [] ▸ List.mem_append_left _ hmem)

section
variable {p : Params} {r r' : Regs}

/-- A step emits a marker for an `END` only, and one at most. -/
theorem count_endw_le_of_txStep {w : InWord} {out : List OutWord} (h : r.CleanWhileRunning)
    (hstep : txStep p r w = some (r', out)) : out.count endw ≤ if wordTag w then 1 else 0 := by
  have hrun : r.errCode = .noError := by
    by_contra herr
    cases hstep.symm.trans (txStep_of_failed herr w)
  have ⟨hcnt, _⟩ := h hrun
  rcases inWord_cases w with ⟨c, nib, rfl, hc⟩ | ⟨c, rfl, hc⟩ | ⟨ignored, rfl⟩
  · rcases acceptNibble_outcomes p nib r with ⟨_, _, ha, -⟩ | ⟨h3, -⟩
    · cases hstep.symm.trans (txStep_push hc hrun ha)
      rw [List.count_eq_zero.mpr (endw_notMem_of_acceptNibble hcnt ha)]
      exact Nat.zero_le _
    · exact absurd h3 hcnt
  · cases hstep.symm.trans (txStep_of_raised hrun (wordEffect_illegal hc p r))
    exact Nat.zero_le _
  · rcases finishStream_outcomes p r with ⟨-, he⟩ | ⟨-, -, he⟩ | ⟨h3, -⟩
    · cases hstep.symm.trans (txStep_of_ok hrun ((wordEffect_end p ignored r).trans he))
      rw [List.count_append, List.count_eq_zero.mpr (endw_notMem_base64Text _)]
      simp
    · cases hstep.symm.trans (txStep_of_raised hrun ((wordEffect_end p ignored r).trans he))
      exact Nat.zero_le _
    · exact absurd h3 hcnt

/-- A run emits no more markers than there are `END` words in it. -/
theorem count_endw_txRun_le (h : r.CleanWhileRunning) (ws : List InWord) :
    (txRun p r ws).2.count endw ≤ ws.countP wordTag := by
  induction ws generalizing r with
  | nil => exact Nat.zero_le _
  | cons w ws ih =>
    cases hstep : txStep p r w with
    | none => rw [txRun_cons_of_none hstep]; exact Nat.zero_le _
    | some next =>
      rw [txRun_cons hstep, List.count_append, List.countP_cons, Nat.add_comm]
      exact Nat.add_le_add (ih (txStep_cleanWhileRunning h hstep)) (count_endw_le_of_txStep h hstep)

/-- An `END` that leaves no error has completed: the registers are those of reset, and the marker comes last. -/
theorem txRun_end_of_ok (h : r.CleanWhileRunning) {ignored : Byte}
    (hok : (txRun p r [mkWord true ignored]).1.errCode = .noError) :
    txRun p r [mkWord true ignored] = (Regs.reset, base64Text (pendingBytes r) ++ [endw]) := by
  by_cases hrun : r.errCode = .noError
  · rcases completes_or_raises p r with hends | ⟨hn, hpol⟩
    · exact txRun_end_of_completes hrun (h hrun) hends ignored
    · rw [txRun_end_of_odd_error hrun hn hpol] at hok
      cases hok
  · rw [txRun_of_failed hrun] at hok
    exact absurd hok hrun

/-- A run whose last word is an `END` and that ends with no error has returned to the registers of reset, and the marker
is its last output. -/
theorem txRun_append_end (h : r.CleanWhileRunning) {before : List InWord} {ignored : Byte}
    (hok : (txRun p r (before ++ [mkWord true ignored])).1.errCode = .noError) :
    ∃ out, txRun p r (before ++ [mkWord true ignored]) = (Regs.reset, out ++ [endw]) := by
  have hclean := txRun_cleanWhileRunning (p := p) h before
  rw [txRun_append h] at hok ⊢
  rw [txRun_end_of_ok hclean hok, ← List.append_assoc]
  exact ⟨_, rfl⟩

end

/-- Of words that end in a marker, a part at the end that holds none is empty. -/
theorem eq_nil_of_endw_notMem {sent queued out : List OutWord} (h : sent ++ queued = out ++ [endw])
    (hnone : endw ∉ queued) : queued = [] := by
  rcases queued.eq_nil_or_concat' with rfl | ⟨front, last, rfl⟩
  · rfl
  · rw [← List.append_assoc] at h
    obtain ⟨-, hmarker⟩ := List.append_inj' h rfl
    rw [hmarker] at hnone
    exact absurd (List.mem_append_right front List.mem_cons_self) hnone

/-- Settles O52: all markers of the run having been received, none is queued, and the run's output ends in one. -/
theorem completedLastStreamMeansSuccess : Obligations.CompletedLastStreamMeansSuccess := by
  unfold Obligations.CompletedLastStreamMeansSuccess
  intro p s _ hlogs hnothing hcompleted
  obtain ⟨hregs, hout⟩ := hlogs
  have ⟨hlast, hmarkers, hfailed⟩ := hcompleted
  have hrun : s.regs.errCode = .noError := by
    by_contra herr
    exact Bool.false_ne_true (hfailed.symm.trans (errValid_iff.mpr herr))
  obtain ⟨before, ignored, haccepted⟩ := eq_append_end_of_getLast? hlast
  rw [hregs, haccepted] at hrun
  obtain ⟨out, run⟩ := txRun_append_end regs_reset_cleanWhileRunning hrun
  rw [← haccepted] at run
  have hqueued : s.oq.count endw = 0 := by
    have bound := count_endw_txRun_le (p := p) regs_reset_cleanWhileRunning s.bench.accepted
    rw [← hout, List.count_append, hmarkers] at bound
    omega
  have hempty : s.oq = [] := eq_nil_of_endw_notMem (hout.trans (congrArg Prod.snd run)) (List.count_eq_zero.mp hqueued)
  refine ⟨⟨hnothing, hcompleted, hempty, hregs.trans (congrArg Prod.fst run)⟩, ?_⟩
  rw [← hout, hempty, List.append_nil]

end Sys2Proof.Machine
end

section
/-! PROOFS. The beginning of a run (R170, R181, assumptions 4 and 18): a reset edge has cleared the logs, and a run that
has been sent no word has no last stream to complete. -/

namespace Sys2Proof.Machine

open Sys2Proof

theorem not_succeeded_of_accepted_nil {s : State} (hnone : s.bench.accepted = []) : ¬ s.Succeeded := by
  rintro ⟨-, ⟨hlast, -, -⟩, -⟩
  rw [hnone] at hlast
  cases hlast

/-- Settles O53: the registers left record no error, no word of the run has been sent, and the run on no word has no
output. -/
theorem resetBeginsAnUnfinishedRun : Obligations.ResetBeginsAnUnfinishedRun := by
  unfold Obligations.ResetBeginsAnUnfinishedRun
  intro p s t hrst h
  cases (stepWith_of_rst hrst).symm.trans h
  exact ⟨⟨rfl, not_succeeded_of_accepted_nil rfl⟩, rfl, rfl⟩

end Sys2Proof.Machine
end
